-- ==== Sys2Proof/Word.lean ====
section
/-! DEFINITION. The word types of the block: a byte of BUF, a 16-bit command or header word, and the 48 bits of the
write-data and read-data buses (00_scope R8). Every value is unsigned (00_scope R10). -/
namespace Sys2Proof

/-- A byte of BUF. -/
abbrev Byte := BitVec 8

/-- A 16-bit command word (CMD_W) or 16-bit header word. -/
abbrev Word := BitVec 16

/-- The 48-bit write-data and read-data buses (WDATA_W, RDATA_W). -/
abbrev Data := BitVec 48

/-- A 24-bit byte address of BUF, or a 24-bit window length (20_memory R40, 10_state R22). -/
abbrev Addr := BitVec 24

end Sys2Proof
end

