-- ==== Sys2Proof/Syntax.lean ====
section
/-! DEFINITION. The 40 commands of spec/opcode_table.json (30_encoding R68), one constructor per row, in the table's
order, with the selectors of 30_encoding R63 and the indexes of R64 as operands. The write data of a command is on the bus
`cmd_wdata` (30_encoding R62), not in the command word. -/
namespace Sys2Proof

/-- The window registers WIN_RD selects. -/
inductive WinReg where
  | base | avail
  deriving DecidableEq, Repr

/-- The header fields whose width is fixed (42_field_layout R120, ids 0 to 9). -/
inductive FixedField where
  | fc | dur | a1 | a2 | a3 | a4 | sc | qos | bac | ssc
  deriving DecidableEq, Repr

/-- The header fields (42_field_layout R120): those of fixed width, and the bitmap. -/
inductive Field where
  | fixed (f : FixedField)
  | bmp
  deriving DecidableEq, Repr

/-- The sub-fields of Frame Control below the flags (41_frame_control R105). -/
inductive FcField where
  | ver | ftype | subtype
  deriving DecidableEq, Repr

/-- The eight Frame Control flags (41_frame_control R102). -/
inductive Flag where
  | toDs | fromDs | moreFrag | retry | pwrMgmt | moreData | protectedFrame | order
  deriving DecidableEq, Repr

/-- The four address slots (43_dispatch_addresses R148): slot 0 is A1. -/
inductive Slot where
  | a1 | a2 | a3 | a4
  deriving DecidableEq, Repr

/-- The five address roles (43_dispatch_addresses R151). -/
inductive Role where
  | da | sa | bssid | ra | ta
  deriving DecidableEq, Repr

/-- The sub-fields of Sequence Control and of Starting Sequence Control (44_control_subfields R171, R186). -/
inductive SeqField where
  | frag | seq
  deriving DecidableEq, Repr

/-- The sub-fields of QoS Control (44_control_subfields R176). -/
inductive QosField where
  | tid | eosp | ackPolicy | amsdu | txop
  deriving DecidableEq, Repr

/-- The sub-fields of BA/BAR Control that have a command (44_control_subfields R181). -/
inductive BacField where
  | policy | multiTid | compr | tid
  deriving DecidableEq, Repr

/-- The commands. A bitmap index is a count, checked by `Instr.wellFormed`. -/
inductive Instr where
  | nop
  | decode
  | commit
  | statusRd
  | winRd (r : WinReg)
  | kindRd
  | fsizeRd
  | hlenRd
  | offsetRd (f : Field)
  | fcRd
  | fcWr
  | fcfRd (f : FcField)
  | fcfWr (f : FcField)
  | flagRd (f : Flag)
  | flagWr (f : Flag)
  | durRd
  | durWr
  | addrRd (a : Slot)
  | addrWr (a : Slot)
  | roleRd (r : Role)
  | roleWr (r : Role)
  | scRd
  | scWr
  | scfRd (f : SeqField)
  | scfWr (f : SeqField)
  | qosRd
  | qosWr
  | qsfRd (f : QosField)
  | qsfWr (f : QosField)
  | bacRd
  | bacWr
  | bacfRd (f : BacField)
  | bacfWr (f : BacField)
  | sscRd
  | sscWr
  | sscfRd (f : SeqField)
  | sscfWr (f : SeqField)
  | bmpLenRd
  | bmpRd (i : Nat)
  | bmpWr (i : Nat)
  deriving DecidableEq, Repr

end Sys2Proof
end

