-- ==== Sys2Proof/WellFormed.lean ====
section
/-! DEFINITION. Which instruction terms a command word can hold. Selectors are names, so the one thing to check is the
bitmap index, which IDX holds in 6 bits (30_encoding R64). -/
namespace Sys2Proof

/-- A bitmap byte index is 0..63 (30_encoding R64). -/
def bitmapIndexOk (i : Nat) : Bool := decide (i < 64)

/-- The operands are ones a legal command word holds (30_encoding R63, R64). -/
def Instr.wellFormed : Instr → Bool
  | .bmpRd i => bitmapIndexOk i
  | .bmpWr i => bitmapIndexOk i
  | .nop | .decode | .commit | .statusRd | .winRd _ | .kindRd | .fsizeRd | .hlenRd | .offsetRd _
  | .fcRd | .fcWr | .fcfRd _ | .fcfWr _ | .flagRd _ | .flagWr _ | .durRd | .durWr | .addrRd _ | .addrWr _
  | .roleRd _ | .roleWr _ | .scRd | .scWr | .scfRd _ | .scfWr _ | .qosRd | .qosWr | .qsfRd _ | .qsfWr _
  | .bacRd | .bacWr | .bacfRd _ | .bacfWr _ | .sscRd | .sscWr | .sscfRd _ | .sscfWr _ | .bmpLenRd => true

end Sys2Proof
end

