-- ==== Sys2Proof/Decode.lean ====
section
/-! DEFINITION. The command-word decoder and encoder (30_encoding R61 to R70): the word is RSV[15], IDX[14:9], SEL[8:6],
OPC[5:0], always one word. An illegal word is rejected by the name of the reason (30_encoding R65). -/
namespace Sys2Proof

/-- Why a command word is illegal (30_encoding R65). -/
inductive Reject where
  /-- RSV = 1. -/
  | reservedBit
  /-- OPC is not in the map of R68 (R69). -/
  | reservedOpcode (opc : Nat)
  /-- SEL is not listed for the opcode in R63. -/
  | selOutOfRange (sel : Nat)
  /-- The opcode uses no SEL and SEL is not 0. -/
  | straySel (sel : Nat)
  /-- IDX is outside the opcode's range in R64. -/
  | idxOutOfRange (idx : Nat)
  /-- The opcode uses no IDX and IDX is not 0. -/
  | strayIdx (idx : Nat)
  deriving DecidableEq, Repr

/-- OPC, bits 5:0 (R61). -/
def opcOf (w : Word) : Nat := (w.extractLsb' 0 6).toNat

/-- SEL, bits 8:6 (R61). -/
def selOf (w : Word) : Nat := (w.extractLsb' 6 3).toNat

/-- IDX, bits 14:9 (R61). -/
def idxOf (w : Word) : Nat := (w.extractLsb' 9 6).toNat

/-- RSV, bit 15 (R61). -/
def rsvOf (w : Word) : Bool := w.getLsbD 15

/-- SEL of WIN_RD (R63). -/
def winRegOf : Nat → Option WinReg
  | 0 => some .base
  | 1 => some .avail
  | _ => none

/-- SEL of FCF_RD and FCF_WR (R63). -/
def fcFieldOf : Nat → Option FcField
  | 0 => some .ver
  | 1 => some .ftype
  | 2 => some .subtype
  | _ => none

/-- SEL of FLAG_RD and FLAG_WR (R63, 41_frame_control R102). -/
def flagOf : Nat → Option Flag
  | 0 => some .toDs
  | 1 => some .fromDs
  | 2 => some .moreFrag
  | 3 => some .retry
  | 4 => some .pwrMgmt
  | 5 => some .moreData
  | 6 => some .protectedFrame
  | 7 => some .order
  | _ => none

/-- SEL of ADDR_RD and ADDR_WR (R63). -/
def slotOf : Nat → Option Slot
  | 0 => some .a1
  | 1 => some .a2
  | 2 => some .a3
  | 3 => some .a4
  | _ => none

/-- SEL of ROLE_RD and ROLE_WR (R63). -/
def roleOf : Nat → Option Role
  | 0 => some .da
  | 1 => some .sa
  | 2 => some .bssid
  | 3 => some .ra
  | 4 => some .ta
  | _ => none

/-- SEL of SCF_RD, SCF_WR, SSCF_RD and SSCF_WR (R63). -/
def seqFieldOf : Nat → Option SeqField
  | 0 => some .frag
  | 1 => some .seq
  | _ => none

/-- SEL of QSF_RD and QSF_WR (R63). -/
def qosFieldOf : Nat → Option QosField
  | 0 => some .tid
  | 1 => some .eosp
  | 2 => some .ackPolicy
  | 3 => some .amsdu
  | 4 => some .txop
  | _ => none

/-- SEL of BACF_RD and BACF_WR (R63). -/
def bacFieldOf : Nat → Option BacField
  | 0 => some .policy
  | 1 => some .multiTid
  | 2 => some .compr
  | 3 => some .tid
  | _ => none

/-- IDX of OFFSET_RD: a field id (R64, 42_field_layout R120). -/
def fieldOf : Nat → Option Field
  | 0 => some (.fixed .fc)
  | 1 => some (.fixed .dur)
  | 2 => some (.fixed .a1)
  | 3 => some (.fixed .a2)
  | 4 => some (.fixed .a3)
  | 5 => some (.fixed .a4)
  | 6 => some (.fixed .sc)
  | 7 => some (.fixed .qos)
  | 8 => some (.fixed .bac)
  | 9 => some (.fixed .ssc)
  | 10 => some .bmp
  | _ => none

/-- An opcode that uses neither SEL nor IDX (R65). -/
def plainWord (sel idx : Nat) (i : Instr) : Except Reject Instr :=
  if sel ≠ 0 then .error (.straySel sel)
  else if idx ≠ 0 then .error (.strayIdx idx)
  else .ok i

/-- An opcode that uses SEL and no IDX (R65). -/
def selWord {α : Type} (sel idx : Nat) (pick : Nat → Option α) (mk : α → Instr) : Except Reject Instr :=
  match pick sel with
  | none => .error (.selOutOfRange sel)
  | some x => if idx ≠ 0 then .error (.strayIdx idx) else .ok (mk x)

/-- An opcode that uses IDX and no SEL (R65). -/
def idxWord {α : Type} (sel idx : Nat) (pick : Nat → Option α) (mk : α → Instr) : Except Reject Instr :=
  if sel ≠ 0 then .error (.straySel sel)
  else match pick idx with
    | none => .error (.idxOutOfRange idx)
    | some x => .ok (mk x)

/-- A bitmap index: every 6-bit value is one (R64). -/
def bitmapIndexOf (idx : Nat) : Option Nat := if bitmapIndexOk idx then some idx else none

/-- The opcode map of R68 with the selectors of R63 and the indexes of R64. -/
def decodeFields (opc sel idx : Nat) : Except Reject Instr :=
  match opc with
  | 0x00 => plainWord sel idx .nop
  | 0x01 => plainWord sel idx .decode
  | 0x02 => plainWord sel idx .commit
  | 0x03 => plainWord sel idx .statusRd
  | 0x04 => selWord sel idx winRegOf .winRd
  | 0x05 => plainWord sel idx .kindRd
  | 0x06 => plainWord sel idx .fsizeRd
  | 0x07 => plainWord sel idx .hlenRd
  | 0x08 => idxWord sel idx fieldOf .offsetRd
  | 0x10 => plainWord sel idx .fcRd
  | 0x11 => plainWord sel idx .fcWr
  | 0x12 => selWord sel idx fcFieldOf .fcfRd
  | 0x13 => selWord sel idx fcFieldOf .fcfWr
  | 0x14 => selWord sel idx flagOf .flagRd
  | 0x15 => selWord sel idx flagOf .flagWr
  | 0x18 => plainWord sel idx .durRd
  | 0x19 => plainWord sel idx .durWr
  | 0x20 => selWord sel idx slotOf .addrRd
  | 0x21 => selWord sel idx slotOf .addrWr
  | 0x22 => selWord sel idx roleOf .roleRd
  | 0x23 => selWord sel idx roleOf .roleWr
  | 0x28 => plainWord sel idx .scRd
  | 0x29 => plainWord sel idx .scWr
  | 0x2A => selWord sel idx seqFieldOf .scfRd
  | 0x2B => selWord sel idx seqFieldOf .scfWr
  | 0x2C => plainWord sel idx .qosRd
  | 0x2D => plainWord sel idx .qosWr
  | 0x2E => selWord sel idx qosFieldOf .qsfRd
  | 0x2F => selWord sel idx qosFieldOf .qsfWr
  | 0x30 => plainWord sel idx .bacRd
  | 0x31 => plainWord sel idx .bacWr
  | 0x32 => selWord sel idx bacFieldOf .bacfRd
  | 0x33 => selWord sel idx bacFieldOf .bacfWr
  | 0x34 => plainWord sel idx .sscRd
  | 0x35 => plainWord sel idx .sscWr
  | 0x36 => selWord sel idx seqFieldOf .sscfRd
  | 0x37 => selWord sel idx seqFieldOf .sscfWr
  | 0x38 => plainWord sel idx .bmpLenRd
  | 0x39 => idxWord sel idx bitmapIndexOf .bmpRd
  | 0x3A => idxWord sel idx bitmapIndexOf .bmpWr
  | _ => .error (.reservedOpcode opc)

/-- The decoder: total on 16-bit words (R70). -/
def decodeWord (w : Word) : Except Reject Instr :=
  if rsvOf w then .error .reservedBit else decodeFields (opcOf w) (selOf w) (idxOf w)

/-! The encoder, written from the same tables. -/

/-- SEL of a window register. -/
def WinReg.sel : WinReg → Nat
  | .base => 0
  | .avail => 1

/-- SEL of a Frame Control sub-field. -/
def FcField.sel : FcField → Nat
  | .ver => 0
  | .ftype => 1
  | .subtype => 2

/-- SEL of a flag. -/
def Flag.sel : Flag → Nat
  | .toDs => 0
  | .fromDs => 1
  | .moreFrag => 2
  | .retry => 3
  | .pwrMgmt => 4
  | .moreData => 5
  | .protectedFrame => 6
  | .order => 7

/-- SEL of an address slot. -/
def Slot.sel : Slot → Nat
  | .a1 => 0
  | .a2 => 1
  | .a3 => 2
  | .a4 => 3

/-- SEL of an address role. -/
def Role.sel : Role → Nat
  | .da => 0
  | .sa => 1
  | .bssid => 2
  | .ra => 3
  | .ta => 4

/-- SEL of a sequence-control sub-field. -/
def SeqField.sel : SeqField → Nat
  | .frag => 0
  | .seq => 1

/-- SEL of a QoS Control sub-field. -/
def QosField.sel : QosField → Nat
  | .tid => 0
  | .eosp => 1
  | .ackPolicy => 2
  | .amsdu => 3
  | .txop => 4

/-- SEL of a BA Control sub-field. -/
def BacField.sel : BacField → Nat
  | .policy => 0
  | .multiTid => 1
  | .compr => 2
  | .tid => 3

/-- The field id of a fixed-width field. -/
def FixedField.id : FixedField → Nat
  | .fc => 0
  | .dur => 1
  | .a1 => 2
  | .a2 => 3
  | .a3 => 4
  | .a4 => 5
  | .sc => 6
  | .qos => 7
  | .bac => 8
  | .ssc => 9

/-- The field id of a field (42_field_layout R120). -/
def Field.id : Field → Nat
  | .fixed f => f.id
  | .bmp => 10

/-- `cmd_word = IDX*512 + SEL*64 + OPC` with RSV = 0 (R61). -/
def wordOf (opc sel idx : Nat) : Word := BitVec.ofNat 16 (idx * 512 + sel * 64 + opc)

/-- The encoder. -/
def encode : Instr → Word
  | .nop => wordOf 0x00 0 0
  | .decode => wordOf 0x01 0 0
  | .commit => wordOf 0x02 0 0
  | .statusRd => wordOf 0x03 0 0
  | .winRd r => wordOf 0x04 r.sel 0
  | .kindRd => wordOf 0x05 0 0
  | .fsizeRd => wordOf 0x06 0 0
  | .hlenRd => wordOf 0x07 0 0
  | .offsetRd f => wordOf 0x08 0 f.id
  | .fcRd => wordOf 0x10 0 0
  | .fcWr => wordOf 0x11 0 0
  | .fcfRd f => wordOf 0x12 f.sel 0
  | .fcfWr f => wordOf 0x13 f.sel 0
  | .flagRd f => wordOf 0x14 f.sel 0
  | .flagWr f => wordOf 0x15 f.sel 0
  | .durRd => wordOf 0x18 0 0
  | .durWr => wordOf 0x19 0 0
  | .addrRd a => wordOf 0x20 a.sel 0
  | .addrWr a => wordOf 0x21 a.sel 0
  | .roleRd r => wordOf 0x22 r.sel 0
  | .roleWr r => wordOf 0x23 r.sel 0
  | .scRd => wordOf 0x28 0 0
  | .scWr => wordOf 0x29 0 0
  | .scfRd f => wordOf 0x2A f.sel 0
  | .scfWr f => wordOf 0x2B f.sel 0
  | .qosRd => wordOf 0x2C 0 0
  | .qosWr => wordOf 0x2D 0 0
  | .qsfRd f => wordOf 0x2E f.sel 0
  | .qsfWr f => wordOf 0x2F f.sel 0
  | .bacRd => wordOf 0x30 0 0
  | .bacWr => wordOf 0x31 0 0
  | .bacfRd f => wordOf 0x32 f.sel 0
  | .bacfWr f => wordOf 0x33 f.sel 0
  | .sscRd => wordOf 0x34 0 0
  | .sscWr => wordOf 0x35 0 0
  | .sscfRd f => wordOf 0x36 f.sel 0
  | .sscfWr f => wordOf 0x37 f.sel 0
  | .bmpLenRd => wordOf 0x38 0 0
  | .bmpRd i => wordOf 0x39 0 i
  | .bmpWr i => wordOf 0x3A 0 i

/-- The decoder on a word numbered as spec/opcode_table.json numbers it: a command is one 16-bit word, whose bit 0 is
bit 0 of `w` (R61). A number that does not fit 16 bits is no command word. -/
def decodeTableWord (nbits w : Nat) : Option Instr :=
  if nbits ≤ 16 ∧ w < 2 ^ 16 then
    match decodeWord (BitVec.ofNat 16 w) with
    | .ok i => some i
    | .error _ => none
  else none

end Sys2Proof
end

