-- ==== Sys2Proof/Config.lean ====
section
/-! DEFINITION. What an implementation fixes (00_scope R8) and the free values of the spec (70_reset_and_hazards R401). -/
namespace Sys2Proof

/-- ADDR_LEN: bytes of an address field (00_scope R8). -/
def Config.addrLen : Nat := 6

/-- FC_LEN, DUR_LEN, SC_LEN, QOS_LEN, BAC_LEN and SSC_LEN: bytes of a 16-bit header word (00_scope R8). -/
def Config.wordLen : Nat := 2

/-- COMPRESSED_BITMAP_LEN: bitmap bytes when BAC.COMPR = 1 (00_scope R8, 42_field_layout R125). -/
def Config.compressedBitmapLen : Nat := 8

/-- FULL_BITMAP_LEN: bitmap bytes when BAC.COMPR = 0 (00_scope R8; 90_conflicts C1 keeps 64). -/
def Config.fullBitmapLen : Nat := 64

/-- The least BUF_SIZE (00_scope R8). -/
def Config.minBufSize : Nat := 2

/-- The greatest BUF_SIZE (00_scope R8). -/
def Config.maxBufSize : Nat := 2 ^ 24

/-- DESIGN CHOICE (log 5), unsafe: the BUF_SIZE that `State.reset` carries, the one of 95_test_vectors section 0.
The parameter is OPEN in 00_scope R8; the step reads it from the state, so a statement about every state quantifies over it. -/
def Config.resetBufSize : Nat := 256

/-- DESIGN CHOICE (log 4), unsafe: what a byte of BUF that nothing has written reads as.
The spec gives BUF no initial contents. -/
def Config.unlistedByte : Byte := 0

/-- FREE VALUE (log 7): the k-th free choice of a reset during a command. True means that the byte holds the value the
command would have written, false that it holds its old value (70_reset_and_hazards R401). -/
opaque Config.resetDraw : Nat → Bool

end Sys2Proof
end

