-- ==== Sys2Proof/Machine/State.lean ====
section
/-! DEFINITION. The state of the machine as plain data: the seven registers of 10_state R22, the buffer BUF (10_state R20),
the ports (30_encoding R60), the other parser instances (60_exceptions R317), and the host's moves to come. -/
namespace Sys2Proof.Machine

/-- BUF as a list of (address, byte) pairs in canonical form: addresses strictly rising, no entry equal to
`Config.unlistedByte`, which an unlisted address reads as. -/
abbrev Memory := List Host.Cell

/-- The frame kinds of register KIND (10_state R23). The reserved value 7 is never written by the block, so the type
leaves it out (93_implementation_defined V1; log 11). -/
inductive Kind where
  | none | mgmt | data | qosData | qosNull | bar | ba
  deriving DecidableEq, Repr

/-- The error codes of 60_exceptions R300. The reserved code 7 is never produced, so the type leaves it out
(93_implementation_defined V2; log 11). -/
inductive ErrCode where
  | ok | outOfRange | unsupportedSubtype | inconsistentFlags | fieldAbsent | notDecoded | badCommand
  deriving DecidableEq, Repr

/-- The registers of one parser instance (10_state R22). -/
structure Regs where
  /-- VALID: a frame is attached and decoded. -/
  valid : Bool
  /-- KIND: the frame variant latched at DECODE. -/
  kind : Kind
  /-- HLEN: the header extent set by the last commit. -/
  hlen : BitVec 8
  /-- BASE: the address in BUF of the window's first byte. -/
  base : Addr
  /-- AVAIL: the bytes available in the window. -/
  avail : Addr
  /-- LAST_ERR: the error code of the most recently completed command. -/
  lastErr : ErrCode
  /-- STICKY: bit c-1 is set once a command has returned error code c. -/
  sticky : BitVec 7
  deriving DecidableEq, Repr

/-- The response a command gives: `rsp_err` and `rsp_data` (30_encoding R66). -/
structure Response where
  err : ErrCode
  data : Data
  deriving DecidableEq, Repr

/-- A move of the outside world. One step consumes one move: every execution is a total order of whole commands and host
accesses (20_memory R51). DESIGN CHOICE (log 1): the moves to come stand in State, oldest first. -/
inductive HostMove where
  /-- The host issues a command: `cmd_word` and `cmd_wdata` (30_encoding R60, R61). -/
  | command (word : Word) (wdata : Data)
  /-- The host writes a byte of BUF while no command is outstanding (20_memory R50). -/
  | writeBuf (addr : Addr) (b : Byte)
  /-- `rst` is asserted while no command is outstanding (70_reset_and_hazards R400). -/
  | reset
  /-- `rst` is asserted while this command is outstanding (70_reset_and_hazards R401). -/
  | resetDuring (word : Word) (wdata : Data)
  /-- The host turns to the ports of the k-th of the other instances (60_exceptions R317). -/
  | selectInstance (k : Nat)
  deriving DecidableEq, Repr

/-- The machine. The registers are those of the instance whose ports the host now drives. -/
structure State extends Regs where
  /-- BUF, shared by all instances (10_state R20, 20_memory R40). -/
  buf : Memory
  /-- BUF_SIZE (00_scope R8), a parameter that no step changes (log 5). -/
  bufSize : Nat
  /-- The registers of the other instances, N_INSTANCES - 1 of them (60_exceptions R317; log 6). -/
  others : List Regs
  /-- The write-data bus `cmd_wdata` as presented with the current command (30_encoding R62; log 2). -/
  wdata : Data
  /-- The response port: `none` is `rsp_valid = 0` (30_encoding R60, R67; log 3). -/
  rsp : Option Response
  /-- The host's moves to come, oldest first (log 1). -/
  host : List HostMove
  /-- How many free choices of R401 have been taken: the model's own counter (log 7). -/
  draws : Nat
  deriving DecidableEq, Repr

/-- Why the model stops. No command of the spec stops the block (60_exceptions R313): each of these stands for an access
to something the spec says does not exist, or for a state the block cannot be in. -/
inductive Fault where
  /-- Raised by `State.access` when a window access that passed the check of 20_memory R43 lies outside BUF. R43 and
  10_state R26 say that cannot happen, so no run reaches it (log 10). Safe. -/
  | outsideBuffer (addr : Nat)
  /-- Raised by `State.frameSize` when a frame is attached but KIND is NONE: 42_field_layout R121 lays out no field.
  10_state R26 says that cannot happen, so no run reaches it (log 10). Safe. -/
  | noLayout
  /-- Raised by the host's write move at an address that is not in BUF (20_memory R40; log 12). Safe. -/
  | hostOutsideBuffer (addr : Nat)
  /-- Raised by the host's move to an instance that does not exist (60_exceptions R317; log 12). Safe. -/
  | noSuchInstance (k : Nat)
  deriving DecidableEq, Repr

/-- Why the model has no meaning for an instruction. -/
inductive Refusal where
  /-- Raised by a refused arm of `exec` alone: the instruction has no meaning yet. Safe. No arm is refused. -/
  | notModelled (mnemonic : String)
  deriving DecidableEq, Repr

/-- Why a command's pseudocode ends early: `raise E` (00_scope R13), or a fault of the model. -/
inductive Stop where
  | raised (e : ErrCode)
  | fault (f : Fault)
  deriving DecidableEq, Repr

/-- The outcomes of a step of this machine. -/
abbrev Result := Host.Outcome State Fault Refusal

/-- The registers right after reset (70_reset_and_hazards R400). -/
def Regs.reset : Regs where
  valid := false
  kind := .none
  hlen := 0
  base := 0
  avail := 0
  lastErr := .ok
  sticky := 0

/-- The machine right after reset, for a BUF of `bufSize` bytes and `n` other instances. Reset does not change BUF
(R400); what BUF holds where the host has written nothing is log 4, the ports and the model's own fields are logs 1, 2, 3
and 7. -/
def State.resetWith (bufSize n : Nat) : State where
  toRegs := Regs.reset
  buf := []
  bufSize := bufSize
  others := List.replicate n Regs.reset
  wdata := 0
  rsp := none
  host := []
  draws := 0

/-- The machine right after reset. The parameters BUF_SIZE and N_INSTANCES are OPEN in the spec; the values here are DESIGN
CHOICES (logs 5 and 6). -/
def State.reset : State := State.resetWith Config.resetBufSize 0

end Sys2Proof.Machine
end

