-- ==== Sys2Proof/Machine/Flags.lean ====
section
/-! DEFINITION. The numeric codes of KIND and of the errors, the Frame Control flags, the STICKY bits and the status word. -/
namespace Sys2Proof.Machine

/-- The value of KIND (10_state R23). -/
def Kind.code : Kind → BitVec 3
  | .none => 0
  | .mgmt => 1
  | .data => 2
  | .qosData => 3
  | .qosNull => 4
  | .bar => 5
  | .ba => 6

/-- The data kinds DATAK (10_state R23). -/
def Kind.isData : Kind → Bool
  | .data | .qosData | .qosNull => true
  | .none | .mgmt | .bar | .ba => false

/-- The kinds that have no four-address form (42_field_layout R127). -/
def Kind.isThreeAddress : Kind → Bool
  | .mgmt | .bar | .ba => true
  | .none | .data | .qosData | .qosNull => false

/-- The value of an error code on `rsp_err` (60_exceptions R300). -/
def ErrCode.code : ErrCode → BitVec 3
  | .ok => 0
  | .outOfRange => 1
  | .unsupportedSubtype => 2
  | .inconsistentFlags => 3
  | .fieldAbsent => 4
  | .notDecoded => 5
  | .badCommand => 6

/-- The STICKY bit of an error: bit c-1 for code c, none for OK (10_state R22, 60_exceptions R306). -/
def ErrCode.stickyBit : ErrCode → BitVec 7
  | .ok => 0
  | .outOfRange => 0b0000001
  | .unsupportedSubtype => 0b0000010
  | .inconsistentFlags => 0b0000100
  | .fieldAbsent => 0b0001000
  | .notDecoded => 0b0010000
  | .badCommand => 0b0100000

/-- The bit of the Frame Control word that holds a flag (41_frame_control R102). -/
def Flag.bit : Flag → Nat
  | .toDs => 8
  | .fromDs => 9
  | .moreFrag => 10
  | .retry => 11
  | .pwrMgmt => 12
  | .moreData => 13
  | .protectedFrame => 14
  | .order => 15

/-- A flag of a Frame Control word. -/
def flagIn (fc : Word) (f : Flag) : Bool := fc.getLsbD (Flag.bit f)

/-- TO_DS = FROM_DS = 1: the flags call for four addresses (42_field_layout R122, R127). -/
def bothDs (fc : Word) : Bool := flagIn fc .toDs && flagIn fc .fromDs

/-- The compressed-bitmap bit of a BA Control word (44_control_subfields R181). -/
def comprIn (bac : Word) : Bool := bac.getLsbD 2

/-- The status word (10_state R24, 46_status R211): VALID in bit 0, KIND in 3:1, LAST_ERR in 6:4, STICKY in 14:8. -/
def statusWord (r : Regs) : Word :=
  (r.sticky.setWidth 16 <<< 8) ||| ((ErrCode.code r.lastErr).setWidth 16 <<< 4) |||
    ((Kind.code r.kind).setWidth 16 <<< 1) ||| (BitVec.ofBool r.valid).setWidth 16

end Sys2Proof.Machine
end

