-- ==== Sys2Proof/Machine/Ops.lean ====
section
/-! DEFINITION. The named operations over BUF and the registers: bytes of BUF, MemRead and MemWrite (00_scope R11), the
window check (20_memory R43), and how a command ends: a value, or an error, which is this block's only exception
(00_scope R13, 60_exceptions R306, R307). -/
namespace Sys2Proof.Machine

/-! ## Bytes of BUF -/

/-- The byte at an address. -/
def Memory.byte : Memory → Nat → Byte
  | [], _ => Config.unlistedByte
  | (x, c) :: m, a => if x = a then c else Memory.byte m a

/-- Put an entry in front, unless it is what an unlisted address reads as. -/
def Memory.cons (a : Nat) (b : Byte) (m : Memory) : Memory :=
  if b = Config.unlistedByte then m else (a, b) :: m

/-- Write the byte at an address, keeping the canonical form. -/
def Memory.set : Memory → Nat → Byte → Memory
  | [], a, b => Memory.cons a b []
  | (x, c) :: m, a, b =>
    if a < x then Memory.cons a b ((x, c) :: m)
    else if a = x then Memory.cons a b m
    else (x, c) :: Memory.set m a b

/-- The canonical form from address `lo` on: addresses rise strictly, and no entry is what an unlisted address reads as. -/
def Memory.wfFrom : Nat → Memory → Bool
  | _, [] => true
  | lo, (x, c) :: m => decide (lo ≤ x) && decide (c ≠ Config.unlistedByte) && Memory.wfFrom (x + 1) m

/-- The canonical form of BUF. -/
def Memory.wf (m : Memory) : Bool := Memory.wfFrom 0 m

/-! ## MemRead and MemWrite -/

/-- The sum of 00_scope R11: byte k of the n bytes at `a` has weight 2^(8k). -/
def byteSum (m : Memory) (a : Nat) : Nat → Nat
  | 0 => 0
  | n + 1 => byteSum m a n + (Memory.byte m (a + n)).toNat * 2 ^ (8 * n)

/-- `MemRead(a, n)`, little-endian, on the 48-bit bus (00_scope R11, 30_encoding R66); n is at most 6. -/
def memRead (m : Memory) (a n : Nat) : Data := BitVec.ofNat 48 (byteSum m a n)

/-- `MemWrite(a, n, v)`: byte k of `v` to address a+k, for every k < n (00_scope R11). -/
def memWrite (m : Memory) (a : Nat) : Nat → Data → Memory
  | 0, _ => m
  | n + 1, v => Memory.set (memWrite m a n v) (a + n) (v.extractLsb' (8 * n) 8)

/-! ## Register and port updates -/

/-- `HLEN <- n` (00_scope R12). -/
def State.setHlen (s : State) (n : BitVec 8) : State := { s with hlen := n }

/-- BUF after a write. -/
def State.setBuf (s : State) (m : Memory) : State := { s with buf := m }

/-- The write-data bus as the host presents it (30_encoding R62). -/
def State.setWdata (s : State) (d : Data) : State := { s with wdata := d }

/-- The host's moves still to come. -/
def State.setHost (s : State) (h : List HostMove) : State := { s with host := h }

/-- Attach a window: `BASE <- b; AVAIL <- a; KIND <- k; VALID <- 1` (43_dispatch_addresses R140). -/
def State.setWindow (s : State) (b a : Addr) (k : Kind) : State :=
  { s with base := b, avail := a, kind := k, valid := true }

/-! ## The window -/

/-- `Access(off, n)` (20_memory R43): the buffer address of window offset `off`, if the n bytes lie in the window. The second
check never fails by R43 and 10_state R26; an address outside BUF does not exist, so the model stops there (log 10). -/
def State.access (s : State) (off n : Nat) : Except Stop Nat :=
  if s.avail.toNat < off + n then .error (.raised .outOfRange)
  else if s.bufSize < s.base.toNat + off + n then .error (.fault (.outsideBuffer (s.base.toNat + off)))
  else .ok (s.base.toNat + off)

/-! ## How a command ends -/

/-- A command that succeeds: `return v` (00_scope R13). LAST_ERR becomes 0 (60_exceptions R307) and the response carries the
value (30_encoding R66). -/
def State.complete (s : State) (v : Data) : State :=
  { s with lastErr := .ok, rsp := some { err := .ok, data := v } }

/-- TAKING AN ERROR, the one shared operation: `raise E` (00_scope R13, 60_exceptions R306, R307). LAST_ERR takes the code,
the code's STICKY bit is set, and the response carries the code and data 0. There is no vector, no handler and no saved
state (R311), and no command returns from an error (R312). -/
def State.fail (s : State) (e : ErrCode) : State :=
  { s with lastErr := e, sticky := s.sticky ||| ErrCode.stickyBit e, rsp := some { err := e, data := 0 } }

/-- End a command: with the new state and the value, or with the error it raised, which acts on `s`. -/
def finish (s : State) : Except Stop (State × Data) → Result
  | .ok (t, v) => .next (t.complete v)
  | .error (.raised e) => .next (s.fail e)
  | .error (.fault f) => .fault f

/-- End a command that only reads: a value, or an error. -/
def finishRead (s : State) (r : Except Stop Data) : Result :=
  finish s (r.map fun v => (s, v))

/-- End a command that writes and returns no value (30_encoding R66): the error, if any, acts on the state before. -/
def finishWrite (s : State) (r : Except Stop State) : Result :=
  finish s (r.map fun t => (t, 0))

/-- A command that needs a frame raises NOT_DECODED when VALID = 0, before anything else it could raise (60_exceptions R303,
R309). -/
def State.framed {α : Type} (s : State) (r : Except Stop α) : Except Stop α :=
  if s.valid then r else .error (.raised .notDecoded)

/-- `Invalidate()` (43_dispatch_addresses R140): detach the frame. -/
def State.invalidate (s : State) : State :=
  { s with valid := false, kind := .none, hlen := 0, base := 0, avail := 0 }

/-! ## The outside world -/

/-- `rst` = 1 (70_reset_and_hazards R400): every register takes its reset value, BUF is not changed, no response. -/
def State.resetRegs (s : State) : State := { s with toRegs := Regs.reset, rsp := none }

/-- Nothing to do: the block waits for a command (70_reset_and_hazards R402); a response is presented for one cycle only
(30_encoding R67). -/
def State.idle (s : State) : State := { s with rsp := none }

/-- The host writes a byte of BUF between commands (20_memory R50): no register changes (70_reset_and_hazards R410). -/
def State.hostWrite (s : State) (a : Addr) (b : Byte) : Result :=
  if a.toNat < s.bufSize then .next { s with buf := Memory.set s.buf a.toNat b, rsp := none }
  else .fault (.hostOutsideBuffer a.toNat)

/-- The host turns to the ports of another instance (60_exceptions R317): its registers come forward and those of the
instance left behind take its place in the list. -/
def State.selectInstance (s : State) (k : Nat) : Result :=
  match s.others[k]? with
  | none => .fault (.noSuchInstance k)
  | some r => .next { s with toRegs := r, others := s.others.set k s.toRegs, rsp := none }

/-- The addresses whose bytes two memories hold differently, each once. -/
def changedAddrs (old new : Memory) : List Nat :=
  ((old ++ new).map Prod.fst).dedup.filter fun a => decide (Memory.byte old a ≠ Memory.byte new a)

/-- A write abandoned by reset (70_reset_and_hazards R401): each listed address holds its byte of `new` where its draw says
so, and else keeps its byte. -/
def tearInto (draw : Nat → Bool) (new : Memory) : Nat → List Nat → Memory → Memory
  | _, [], m => m
  | k, a :: as, m =>
    tearInto draw new (k + 1) as (if draw k then Memory.set m a (Memory.byte new a) else m)

/-- BUF after a reset that abandons a command which would have left `new`. -/
def State.tornBuf (s : State) (new : Memory) : Memory :=
  tearInto Config.resetDraw new s.draws (changedAddrs s.buf new) s.buf

end Sys2Proof.Machine
end

