-- ==== Sys2Proof/Machine/Operands.lean ====
section
/-! DEFINITION. The operand forms: fields and their layout (42_field_layout R120 to R129), sub-fields (41_frame_control R109,
44_control_subfields R171, R176, R181, R186), address slots and roles (43_dispatch_addresses R148, R151). -/
namespace Sys2Proof.Machine

/-! ## Fields -/

/-- The width of a field in bytes (42_field_layout R120). -/
def FixedField.width : FixedField → Nat
  | .fc | .dur | .sc | .qos | .bac | .ssc => Config.wordLen
  | .a1 | .a2 | .a3 | .a4 => Config.addrLen

/-- The layout table (42_field_layout R121): the window offset of a field, or none where it is absent. `w4` is the
four-address condition of R122. -/
def layoutOf (k : Kind) (w4 : Bool) : Field → Option Nat
  | .fixed .fc => match k with
    | .none => none
    | .mgmt | .data | .qosData | .qosNull | .bar | .ba => some 0
  | .fixed .dur => match k with
    | .none => none
    | .mgmt | .data | .qosData | .qosNull | .bar | .ba => some 2
  | .fixed .a1 => match k with
    | .none => none
    | .mgmt | .data | .qosData | .qosNull | .bar | .ba => some 4
  | .fixed .a2 => match k with
    | .none => none
    | .mgmt | .data | .qosData | .qosNull | .bar | .ba => some 10
  | .fixed .a3 => match k with
    | .none | .bar | .ba => none
    | .mgmt | .data | .qosData | .qosNull => some 16
  | .fixed .sc => match k with
    | .none | .bar | .ba => none
    | .mgmt | .data | .qosData | .qosNull => some 22
  | .fixed .a4 => match k with
    | .none | .mgmt | .bar | .ba => none
    | .data | .qosData | .qosNull => if w4 then some 24 else none
  | .fixed .qos => match k with
    | .none | .mgmt | .data | .bar | .ba => none
    | .qosData | .qosNull => if w4 then some 30 else some 24
  | .fixed .bac => match k with
    | .none | .mgmt | .data | .qosData | .qosNull => none
    | .bar | .ba => some 16
  | .fixed .ssc => match k with
    | .none | .mgmt | .data | .qosData | .qosNull => none
    | .bar | .ba => some 18
  | .bmp => match k with
    | .none | .mgmt | .data | .qosData | .qosNull | .bar => none
    | .ba => some 20

/-- `BL` (42_field_layout R125): the bitmap length for a compressed-bitmap bit. -/
def bitmapLen (compr : Bool) : Nat :=
  if compr then Config.compressedBitmapLen else Config.fullBitmapLen

/-- `FC()` (41_frame_control R100): the Frame Control word, read live. -/
def State.fc (s : State) : Except Stop Word := do
  let a ← s.access 0 2
  pure ((memRead s.buf a 2).setWidth 16)

/-- `BAC()` (42_field_layout R125): the BA Control word, read live. -/
def State.bac (s : State) : Except Stop Word := do
  let a ← s.access 16 2
  pure ((memRead s.buf a 2).setWidth 16)

/-- `W4` (42_field_layout R122): the flags are looked at for a data kind only. -/
def State.w4 (s : State) : Except Stop Bool :=
  if s.kind.isData then do
    let v ← s.fc
    pure (bothDs v)
  else pure false

/-- `BL` in the current state (42_field_layout R125). -/
def State.bl (s : State) : Except Stop Nat := do
  let v ← s.bac
  pure (bitmapLen (comprIn v))

/-- `FrameSize()` (42_field_layout R126). For KIND = NONE no field is laid out (R121); the model stops there (log 10). -/
def State.frameSize (s : State) : Except Stop Nat :=
  match s.kind with
  | .none => .error (.fault .noLayout)
  | .mgmt => pure 24
  | .data => do
    let w ← s.w4
    pure (if w then 30 else 24)
  | .qosData | .qosNull => do
    let w ← s.w4
    pure (if w then 32 else 26)
  | .bar => pure 20
  | .ba => do
    let n ← s.bl
    pure (20 + n)

/-- The error of a field that is absent (42_field_layout R127): INCONSISTENT_FLAGS for A4 when the flags call for it in a
kind that has no four-address form, FIELD_ABSENT otherwise. -/
def State.absentError (s : State) (f : Field) : Except Stop ErrCode :=
  if f = .fixed .a4 ∧ s.kind.isThreeAddress then do
    let v ← s.fc
    pure (if bothDs v then .inconsistentFlags else .fieldAbsent)
  else pure .fieldAbsent

/-- `Present(f)` and `Layout(f)` (42_field_layout R127, R121): the window offset of a field that is present, or the error
of one that is absent. -/
def State.present (s : State) (f : Field) : Except Stop Nat := do
  let w ← s.w4
  match layoutOf s.kind w f with
  | some o => pure o
  | none => do
    let e ← s.absentError f
    .error (.raised e)

/-- The address and width a field accessor uses: the presence check, then the bounds check (42_field_layout R129). -/
def State.locate (s : State) (f : FixedField) : Except Stop Nat := do
  let o ← s.present (.fixed f)
  s.access o (FixedField.width f)

/-- `FieldRd(f)` (42_field_layout R129). -/
def State.fieldRd (s : State) (f : FixedField) : Except Stop Data := do
  let a ← s.locate f
  pure (memRead s.buf a (FixedField.width f))

/-- `Commit()` (42_field_layout R128): HLEN takes FrameSize(). -/
def State.commit (s : State) : Except Stop State := do
  let n ← s.frameSize
  pure (s.setHlen (BitVec.ofNat 8 n))

/-- `FieldWr(f, v)` (42_field_layout R129): every check, then the bytes, then the commit. -/
def State.fieldWr (s : State) (f : FixedField) (v : Data) : Except Stop State := do
  let a ← s.locate f
  (s.setBuf (memWrite s.buf a (FixedField.width f) v)).commit

/-! ## Sub-fields -/

/-- A sub-field: bits lsb+width-1 : lsb of a 16-bit header word. -/
structure SubField where
  lsb : Nat
  width : Nat
  deriving DecidableEq, Repr

/-- The sub-fields of Frame Control (41_frame_control R101, R105). -/
def FcField.bits : FcField → SubField
  | .ver => { lsb := 0, width := 2 }
  | .ftype => { lsb := 2, width := 2 }
  | .subtype => { lsb := 4, width := 4 }

/-- A flag as a sub-field one bit wide (41_frame_control R107). -/
def Flag.bits (f : Flag) : SubField := { lsb := Flag.bit f, width := 1 }

/-- The sub-fields of SC and SSC (44_control_subfields R171, R186). -/
def SeqField.bits : SeqField → SubField
  | .frag => { lsb := 0, width := 4 }
  | .seq => { lsb := 4, width := 12 }

/-- The sub-fields of QoS Control (44_control_subfields R176). -/
def QosField.bits : QosField → SubField
  | .tid => { lsb := 0, width := 4 }
  | .eosp => { lsb := 4, width := 1 }
  | .ackPolicy => { lsb := 5, width := 2 }
  | .amsdu => { lsb := 7, width := 1 }
  | .txop => { lsb := 8, width := 8 }

/-- The sub-fields of BA/BAR Control (44_control_subfields R181). -/
def BacField.bits : BacField → SubField
  | .policy => { lsb := 0, width := 1 }
  | .multiTid => { lsb := 1, width := 1 }
  | .compr => { lsb := 2, width := 1 }
  | .tid => { lsb := 12, width := 4 }

/-- `v[lsb+w-1 : lsb]` of a header word, on the 48-bit bus (41_frame_control R109). -/
def subGet (v : Word) (b : SubField) : Data := (v.extractLsb' b.lsb b.width).setWidth 48

/-- The word of `SubWr` (41_frame_control R109): the sub-field takes `x` truncated to its width, every other bit stays. -/
def subPut (v : Word) (b : SubField) (x : Data) : Word :=
  let mask : Word := BitVec.ofNat 16 (2 ^ b.width - 1) <<< b.lsb
  (v &&& ~~~mask) ||| (((x.setWidth b.width).setWidth 16) <<< b.lsb)

/-- `SubRd(f, lsb, w)` (41_frame_control R109). -/
def State.subRd (s : State) (f : FixedField) (b : SubField) : Except Stop Data := do
  let v ← s.fieldRd f
  pure (subGet (v.setWidth 16) b)

/-- `SubWr(f, lsb, w, x)` (41_frame_control R109). -/
def State.subWr (s : State) (f : FixedField) (b : SubField) (x : Data) : Except Stop State := do
  let v ← s.fieldRd f
  s.fieldWr f ((subPut (v.setWidth 16) b x).setWidth 48)

/-! ## Address slots and roles -/

/-- The field of an address slot (43_dispatch_addresses R148). -/
def Slot.field : Slot → FixedField
  | .a1 => .a1
  | .a2 => .a2
  | .a3 => .a3
  | .a4 => .a4

/-- The role table (43_dispatch_addresses R151): the slot that plays a role, or none. -/
def roleSlotOf (k : Kind) (toDs fromDs : Bool) (r : Role) : Option Slot :=
  match r with
  | .ra => match k with
    | .none => none
    | .mgmt | .data | .qosData | .qosNull | .bar | .ba => some .a1
  | .ta => match k with
    | .none => none
    | .mgmt | .data | .qosData | .qosNull | .bar | .ba => some .a2
  | .da => match k with
    | .none | .bar | .ba => none
    | .mgmt => some .a1
    | .data | .qosData | .qosNull => if toDs then some .a3 else some .a1
  | .sa => match k with
    | .none | .bar | .ba => none
    | .mgmt => some .a2
    | .data | .qosData | .qosNull => match toDs, fromDs with
      | false, false => some .a2
      | false, true => some .a3
      | true, false => some .a2
      | true, true => some .a4
  | .bssid => match k with
    | .none | .bar | .ba => none
    | .mgmt => some .a3
    | .data | .qosData | .qosNull => match toDs, fromDs with
      | false, false => some .a3
      | false, true => some .a2
      | true, false => some .a1
      | true, true => none

/-- `RoleSlot(r)` (43_dispatch_addresses R151, R152): the field that plays a role, by the live flags; a role with no slot
raises FIELD_ABSENT. -/
def State.roleField (s : State) (r : Role) : Except Stop FixedField := do
  let v ← s.fc
  match roleSlotOf s.kind (flagIn v .toDs) (flagIn v .fromDs) r with
  | some a => pure (Slot.field a)
  | none => .error (.raised .fieldAbsent)

/-! ## The bitmap -/

/-- The address of bitmap byte `i` (45_block_ack_bitmap R202): present, then the index, then the bounds. -/
def State.locateBitmap (s : State) (i : Nat) : Except Stop Nat := do
  let o ← s.present .bmp
  let n ← s.bl
  if n ≤ i then .error (.raised .fieldAbsent) else s.access (o + i) 1

/-! ## Discrimination -/

/-- `Discriminate(TYPE, SUBTYPE)` (43_dispatch_addresses R141); none is UNSUPPORTED. -/
def discriminate (ftype : BitVec 2) (subtype : BitVec 4) : Option Kind :=
  if ftype = 0 then some .mgmt
  else if ftype = 1 then
    if subtype = 8 then some .bar
    else if subtype = 9 then some .ba
    else none
  else if ftype = 2 then
    if subtype = 0 then some .data
    else if subtype = 8 then some .qosData
    else if subtype = 12 then some .qosNull
    else none
  else none

end Sys2Proof.Machine
end

