-- ==== Sys2Proof/Machine/Addresses.lean ====
section
/-! DEFINITION. The discriminator, Duration and the address encoder (43_dispatch_addresses): DECODE, KIND_RD, DUR_RD, DUR_WR,
ADDR_RD, ADDR_WR, ROLE_RD, ROLE_WR. -/
namespace Sys2Proof.Machine

/-- The frame DECODE attaches, or the error it raises, checked in the order of 43_dispatch_addresses R140. -/
def State.attach (s : State) (b a : Addr) : Except Stop State :=
  if s.bufSize < b.toNat + a.toNat ∨ a.toNat < 2 then .error (.raised .outOfRange)
  else
    let fc : Word := (memRead s.buf b.toNat 2).setWidth 16
    match discriminate (fc.extractLsb' 2 2) (fc.extractLsb' 4 4) with
    | none => .error (.raised .unsupportedSubtype)
    | some k =>
      if k = .ba ∧ a.toNat < 18 then .error (.raised .outOfRange)
      else (s.setWindow b a k).commit

/-- DECODE (43_dispatch_addresses R140): base and length on `cmd_wdata` (30_encoding R62); a failing DECODE detaches the
frame, a successful one returns the new KIND. -/
def execDecode (s : State) : Result :=
  finish s.invalidate
    ((s.attach (s.wdata.extractLsb' 0 24) (s.wdata.extractLsb' 24 24)).map fun t => (t, (Kind.code t.kind).setWidth 48))

/-- KIND_RD (43_dispatch_addresses R143); needs no frame. -/
def execKindRd (s : State) : Result := finishRead s (.ok ((Kind.code s.kind).setWidth 48))

/-- DUR_RD (43_dispatch_addresses R146). -/
def execDurRd (s : State) : Result := finishRead s (s.framed (s.fieldRd .dur))

/-- DUR_WR (43_dispatch_addresses R147). -/
def execDurWr (s : State) : Result := finishWrite s (s.framed (s.fieldWr .dur s.wdata))

/-- ADDR_RD (43_dispatch_addresses R149). -/
def execAddrRd (a : Slot) (s : State) : Result := finishRead s (s.framed (s.fieldRd (Slot.field a)))

/-- ADDR_WR (43_dispatch_addresses R150). -/
def execAddrWr (a : Slot) (s : State) : Result := finishWrite s (s.framed (s.fieldWr (Slot.field a) s.wdata))

/-- ROLE_RD (43_dispatch_addresses R152). -/
def execRoleRd (r : Role) (s : State) : Result :=
  finishRead s (s.framed (do
    let f ← s.roleField r
    s.fieldRd f))

/-- ROLE_WR (43_dispatch_addresses R153). -/
def execRoleWr (r : Role) (s : State) : Result :=
  finishWrite s (s.framed (do
    let f ← s.roleField r
    s.fieldWr f s.wdata))

end Sys2Proof.Machine
end

