-- ==== Sys2Proof/Machine/Bitmap.lean ====
section
/-! DEFINITION. The block-ack bitmap router (45_block_ack_bitmap): BMP_LEN_RD, BMP_RD, BMP_WR. -/
namespace Sys2Proof.Machine

/-- BMP_LEN_RD (45_block_ack_bitmap R201): the bitmap length, with no bounds check on the bitmap bytes. -/
def execBmpLenRd (s : State) : Result :=
  finishRead s (s.framed (do
    let _ ← s.present .bmp
    let n ← s.bl
    pure (BitVec.ofNat 48 n)))

/-- BMP_RD (45_block_ack_bitmap R202). -/
def execBmpRd (i : Nat) (s : State) : Result :=
  finishRead s (s.framed (do
    let a ← s.locateBitmap i
    pure (memRead s.buf a 1)))

/-- BMP_WR (45_block_ack_bitmap R203). -/
def execBmpWr (i : Nat) (s : State) : Result :=
  finishWrite s (s.framed (do
    let a ← s.locateBitmap i
    (s.setBuf (memWrite s.buf a 1 s.wdata)).commit))

end Sys2Proof.Machine
end

