-- ==== Sys2Proof/Machine/ControlFields.lean ====
section
/-! DEFINITION. The control sub-field extractors (44_control_subfields): Sequence Control, QoS Control, BA/BAR Control and
Starting Sequence Control, each with a whole-word read and write and a sub-field read and write. -/
namespace Sys2Proof.Machine

/-- SC_RD (44_control_subfields R172). -/
def execScRd (s : State) : Result := finishRead s (s.framed (s.fieldRd .sc))

/-- SC_WR (44_control_subfields R173). -/
def execScWr (s : State) : Result := finishWrite s (s.framed (s.fieldWr .sc s.wdata))

/-- SCF_RD (44_control_subfields R174). -/
def execScfRd (f : SeqField) (s : State) : Result := finishRead s (s.framed (s.subRd .sc (SeqField.bits f)))

/-- SCF_WR (44_control_subfields R175). -/
def execScfWr (f : SeqField) (s : State) : Result :=
  finishWrite s (s.framed (s.subWr .sc (SeqField.bits f) s.wdata))

/-- QOS_RD (44_control_subfields R177). -/
def execQosRd (s : State) : Result := finishRead s (s.framed (s.fieldRd .qos))

/-- QOS_WR (44_control_subfields R178). -/
def execQosWr (s : State) : Result := finishWrite s (s.framed (s.fieldWr .qos s.wdata))

/-- QSF_RD (44_control_subfields R179). -/
def execQsfRd (f : QosField) (s : State) : Result := finishRead s (s.framed (s.subRd .qos (QosField.bits f)))

/-- QSF_WR (44_control_subfields R180). -/
def execQsfWr (f : QosField) (s : State) : Result :=
  finishWrite s (s.framed (s.subWr .qos (QosField.bits f) s.wdata))

/-- BAC_RD (44_control_subfields R182). -/
def execBacRd (s : State) : Result := finishRead s (s.framed (s.fieldRd .bac))

/-- BAC_WR (44_control_subfields R183). -/
def execBacWr (s : State) : Result := finishWrite s (s.framed (s.fieldWr .bac s.wdata))

/-- BACF_RD (44_control_subfields R184). -/
def execBacfRd (f : BacField) (s : State) : Result := finishRead s (s.framed (s.subRd .bac (BacField.bits f)))

/-- BACF_WR (44_control_subfields R185). -/
def execBacfWr (f : BacField) (s : State) : Result :=
  finishWrite s (s.framed (s.subWr .bac (BacField.bits f) s.wdata))

/-- SSC_RD (44_control_subfields R187). -/
def execSscRd (s : State) : Result := finishRead s (s.framed (s.fieldRd .ssc))

/-- SSC_WR (44_control_subfields R188). -/
def execSscWr (s : State) : Result := finishWrite s (s.framed (s.fieldWr .ssc s.wdata))

/-- SSCF_RD (44_control_subfields R189). -/
def execSscfRd (f : SeqField) (s : State) : Result := finishRead s (s.framed (s.subRd .ssc (SeqField.bits f)))

/-- SSCF_WR (44_control_subfields R190). -/
def execSscfWr (f : SeqField) (s : State) : Result :=
  finishWrite s (s.framed (s.subWr .ssc (SeqField.bits f) s.wdata))

end Sys2Proof.Machine
end

