-- ==== Sys2Proof/Machine/FrameControl.lean ====
section
/-! DEFINITION. The frame-control decoder's commands (41_frame_control): FC_RD, FC_WR, FCF_RD, FCF_WR, FLAG_RD, FLAG_WR. The
write data is the bus `cmd_wdata`, of which the low 16 bits or the sub-field's width are used (30_encoding R62). -/
namespace Sys2Proof.Machine

/-- FC_RD (41_frame_control R103). -/
def execFcRd (s : State) : Result := finishRead s (s.framed (s.fieldRd .fc))

/-- FC_WR (41_frame_control R104). -/
def execFcWr (s : State) : Result := finishWrite s (s.framed (s.fieldWr .fc s.wdata))

/-- FCF_RD (41_frame_control R105). -/
def execFcfRd (f : FcField) (s : State) : Result := finishRead s (s.framed (s.subRd .fc (FcField.bits f)))

/-- FCF_WR (41_frame_control R106). -/
def execFcfWr (f : FcField) (s : State) : Result :=
  finishWrite s (s.framed (s.subWr .fc (FcField.bits f) s.wdata))

/-- FLAG_RD (41_frame_control R107). -/
def execFlagRd (f : Flag) (s : State) : Result := finishRead s (s.framed (s.subRd .fc (Flag.bits f)))

/-- FLAG_WR (41_frame_control R108). -/
def execFlagWr (f : Flag) (s : State) : Result :=
  finishWrite s (s.framed (s.subWr .fc (Flag.bits f) s.wdata))

end Sys2Proof.Machine
end

