-- ==== Sys2Proof/Machine/Layout.lean ====
section
/-! DEFINITION. The commands of the field layout unit (42_field_layout): COMMIT, FSIZE_RD, HLEN_RD, OFFSET_RD. -/
namespace Sys2Proof.Machine

/-- COMMIT (42_field_layout R132): recompute HLEN and return it. -/
def execCommit (s : State) : Result :=
  finish s (s.framed (s.commit.map fun t => (t, t.hlen.setWidth 48)))

/-- FSIZE_RD (42_field_layout R130): the live header length. -/
def execFsizeRd (s : State) : Result :=
  finishRead s (s.framed (s.frameSize.map fun n => BitVec.ofNat 48 n))

/-- HLEN_RD (42_field_layout R131): the committed header length. -/
def execHlenRd (s : State) : Result := finishRead s (s.framed (.ok (s.hlen.setWidth 48)))

/-- OFFSET_RD (42_field_layout R133): the offset of a field, with no bounds check. -/
def execOffsetRd (f : Field) (s : State) : Result :=
  finishRead s (s.framed ((s.present f).map fun o => BitVec.ofNat 48 o))

end Sys2Proof.Machine
end

