-- ==== Sys2Proof/Machine/Status.lean ====
section
/-! DEFINITION. The status and window commands (46_status): NOP, STATUS_RD, WIN_RD. None needs a frame. -/
namespace Sys2Proof.Machine

/-- NOP (46_status R210). -/
def execNop (s : State) : Result := finishRead s (.ok 0)

/-- STATUS_RD (46_status R211): the status word before this command's own update of LAST_ERR. -/
def execStatusRd (s : State) : Result := finishRead s (.ok ((statusWord s.toRegs).setWidth 48))

/-- WIN_RD (46_status R212). -/
def execWinRd (r : WinReg) (s : State) : Result :=
  finishRead s (.ok (match r with
    | .base => s.base.setWidth 48
    | .avail => s.avail.setWidth 48))

end Sys2Proof.Machine
end

