-- ==== Sys2Proof/Machine/Dispatch.lean ====
section
/-! DEFINITION. One arm per command of spec/opcode_table.json, each one call of its meaning. -/
namespace Sys2Proof.Machine

/-- The meaning of a command; its write data is `s.wdata`. -/
def exec (i : Instr) (s : State) : Host.Outcome State Fault Refusal :=
  match i with
  | .nop => Sys2Proof.Machine.execNop s
  | .decode => Sys2Proof.Machine.execDecode s
  | .commit => Sys2Proof.Machine.execCommit s
  | .statusRd => Sys2Proof.Machine.execStatusRd s
  | .winRd r => Sys2Proof.Machine.execWinRd r s
  | .kindRd => Sys2Proof.Machine.execKindRd s
  | .fsizeRd => Sys2Proof.Machine.execFsizeRd s
  | .hlenRd => Sys2Proof.Machine.execHlenRd s
  | .offsetRd f => Sys2Proof.Machine.execOffsetRd f s
  | .fcRd => Sys2Proof.Machine.execFcRd s
  | .fcWr => Sys2Proof.Machine.execFcWr s
  | .fcfRd f => Sys2Proof.Machine.execFcfRd f s
  | .fcfWr f => Sys2Proof.Machine.execFcfWr f s
  | .flagRd f => Sys2Proof.Machine.execFlagRd f s
  | .flagWr f => Sys2Proof.Machine.execFlagWr f s
  | .durRd => Sys2Proof.Machine.execDurRd s
  | .durWr => Sys2Proof.Machine.execDurWr s
  | .addrRd a => Sys2Proof.Machine.execAddrRd a s
  | .addrWr a => Sys2Proof.Machine.execAddrWr a s
  | .roleRd r => Sys2Proof.Machine.execRoleRd r s
  | .roleWr r => Sys2Proof.Machine.execRoleWr r s
  | .scRd => Sys2Proof.Machine.execScRd s
  | .scWr => Sys2Proof.Machine.execScWr s
  | .scfRd f => Sys2Proof.Machine.execScfRd f s
  | .scfWr f => Sys2Proof.Machine.execScfWr f s
  | .qosRd => Sys2Proof.Machine.execQosRd s
  | .qosWr => Sys2Proof.Machine.execQosWr s
  | .qsfRd f => Sys2Proof.Machine.execQsfRd f s
  | .qsfWr f => Sys2Proof.Machine.execQsfWr f s
  | .bacRd => Sys2Proof.Machine.execBacRd s
  | .bacWr => Sys2Proof.Machine.execBacWr s
  | .bacfRd f => Sys2Proof.Machine.execBacfRd f s
  | .bacfWr f => Sys2Proof.Machine.execBacfWr f s
  | .sscRd => Sys2Proof.Machine.execSscRd s
  | .sscWr => Sys2Proof.Machine.execSscWr s
  | .sscfRd f => Sys2Proof.Machine.execSscfRd f s
  | .sscfWr f => Sys2Proof.Machine.execSscfWr f s
  | .bmpLenRd => Sys2Proof.Machine.execBmpLenRd s
  | .bmpRd idx => Sys2Proof.Machine.execBmpRd idx s
  | .bmpWr idx => Sys2Proof.Machine.execBmpWr idx s

end Sys2Proof.Machine
end

