-- ==== Sys2Proof/Machine/HostMoves.lean ====
section
/-! DEFINITION. What each move of the outside world does: a command (30_encoding R61 to R70), a host write of BUF, reset between
commands and during one (70_reset_and_hazards R400, R401), and turning to another instance. -/
namespace Sys2Proof.Machine

/-- A command on the port: its write data is on the bus, its word is decoded, and an illegal word raises BAD_COMMAND before
anything else (30_encoding R65, 60_exceptions R304, R309). -/
def runCommand (w : Word) (d : Data) (s : State) : Result :=
  match decodeWord w with
  | .ok i => exec i (s.setWdata d)
  | .error _ => .next ((s.setWdata d).fail .badCommand)

/-- `rst` during a command (70_reset_and_hazards R401): each byte the command would have written holds its old or its new
value, by a free choice (log 7); the registers take their reset values; no response. -/
def resetDuring (w : Word) (d : Data) (s : State) : Result :=
  match runCommand w d s with
  | .next t =>
    .next { s.resetRegs with
      buf := s.tornBuf t.buf
      wdata := d
      draws := s.draws + (changedAddrs s.buf t.buf).length }
  | .fault f => .fault f
  | .refused r => .refused r

/-- One move of the outside world. -/
def runMove (m : HostMove) (s : State) : Result :=
  match m with
  | .command w d => runCommand w d s
  | .writeBuf a b => s.hostWrite a b
  | .reset => .next s.resetRegs
  | .resetDuring w d => resetDuring w d s
  | .selectInstance k => s.selectInstance k

/-- The oldest of the host's moves, or none to do. -/
def nextMove (s : State) : Result :=
  match s.host with
  | [] => .next s.idle
  | m :: rest => runMove m (s.setHost rest)

/-- Put a command in front of the host's moves, with write data 0 (log 2), so that it is the next one. -/
def State.presentWord (s : State) (w : Nat) : State :=
  s.setHost (.command (BitVec.ofNat 16 w) 0 :: s.host)

end Sys2Proof.Machine
end

