-- ==== Sys2Proof/Machine/Step.lean ====
section
/-! DEFINITION. One step: the oldest of the host's moves (20_memory R51). -/
namespace Sys2Proof.Machine

/-- One step of the machine: a next state or a fault (no command is refused). -/
def step (s : State) : Host.Outcome State Fault Refusal := nextMove s

/-- `s` with this command as the host's next move: the block takes commands from its port, never from BUF (20_memory R53;
log 1). The bits of the command word above `nbits` are 0, and so is its write data (log 2). -/
def State.withFetchWord (s : State) (nbits w : Nat) : State := s.presentWord (w % 2 ^ nbits)

end Sys2Proof.Machine
end

