-- ==== Sys2Proof/Machine/Pseudo.lean ====
section
/-! DEFINITION. The pseudo-commands of 30_encoding R72: each an exact expansion into commands, as moves of the host. -/
namespace Sys2Proof.Machine

/-- The pseudo-commands (30_encoding R72). BMP_COPY takes the response of its own BMP_LEN_RD, and REDECODE the responses of
its own WIN_RD commands. -/
inductive Pseudo where
  | wdsOn
  | wdsOff
  | seqRd
  | fragRd
  | seqWr (v : Data)
  | fragWr (v : Data)
  | tidRd
  | baComprRd
  | ssnRd
  | bmpCopy (n : Nat)
  | redecode (b a : Addr)
  deriving DecidableEq, Repr

/-- The write data of `DECODE b, a` (30_encoding R62): the base in the low 24 bits, the length above. -/
def decodeData (b a : Addr) : Data := a ++ b

/-- The commands a pseudo-command stands for, each with its write data. -/
def expandPseudo : Pseudo → List (Instr × Data)
  | .wdsOn => [(.flagWr .toDs, 1), (.flagWr .fromDs, 1)]
  | .wdsOff => [(.flagWr .toDs, 0), (.flagWr .fromDs, 0)]
  | .seqRd => [(.scfRd .seq, 0)]
  | .fragRd => [(.scfRd .frag, 0)]
  | .seqWr v => [(.scfWr .seq, v)]
  | .fragWr v => [(.scfWr .frag, v)]
  | .tidRd => [(.qsfRd .tid, 0)]
  | .baComprRd => [(.bacfRd .compr, 0)]
  | .ssnRd => [(.sscfRd .seq, 0)]
  | .bmpCopy n => (.bmpLenRd, 0) :: (List.range n).map fun i => (.bmpRd i, 0)
  | .redecode b a => [(.winRd .base, 0), (.winRd .avail, 0), (.decode, decodeData b a)]

/-- The host's moves that issue a pseudo-command. -/
def pseudoMoves (p : Pseudo) : List HostMove :=
  (expandPseudo p).map fun c => .command (encode c.1) c.2

end Sys2Proof.Machine
end

