-- ==== Sys2Proof/Machine/Assembly.lean ====
section
/-! DEFINITION. The assembly syntax of 30_encoding R71, after its line is split into the mnemonic and the operands: the
command word and the write data of `MNEMONIC [SEL] [, IDX] [, WDATA]`. -/
namespace Sys2Proof.Machine

/-- An operand as written: a name, or a number. -/
inductive AsmOperand where
  | name (s : String)
  | num (n : Nat)
  deriving DecidableEq, Repr

/-- What a mnemonic takes: the names of its SEL values in order, the names and the count of its IDX values, and whether it
takes write data (30_encoding R63, R64, R62). -/
structure AsmRow where
  mnemonic : String
  opc : Nat
  sels : List String := []
  idxNames : List String := []
  idxCount : Nat := 0
  takesData : Bool := false
  deriving DecidableEq, Repr

/-- The flag names (30_encoding R63). -/
def flagNames : List String :=
  ["TO_DS", "FROM_DS", "MORE_FRAG", "RETRY", "PWR_MGMT", "MORE_DATA", "PROTECTED", "ORDER"]

/-- The field names (30_encoding R64). -/
def fieldNames : List String := ["FC", "DUR", "A1", "A2", "A3", "A4", "SC", "QOS", "BAC", "SSC", "BMP"]

/-- The sub-field, slot and role names (30_encoding R63). -/
def fcFieldNames : List String := ["VER", "TYPE", "SUBTYPE"]
def slotNames : List String := ["A1", "A2", "A3", "A4"]
def roleNames : List String := ["DA", "SA", "BSSID", "RA", "TA"]
def seqFieldNames : List String := ["FRAG", "SEQ"]
def qosFieldNames : List String := ["TID", "EOSP", "ACK_POLICY", "AMSDU", "TXOP"]
def bacFieldNames : List String := ["POLICY", "MULTI_TID", "COMPR", "TID"]

/-- The rows of 30_encoding R68, opcodes 0x00 to 0x19. -/
def asmRowsLow : List AsmRow :=
  [{ mnemonic := "NOP", opc := 0x00 }, { mnemonic := "COMMIT", opc := 0x02 }, { mnemonic := "STATUS_RD", opc := 0x03 },
   { mnemonic := "WIN_RD", opc := 0x04, sels := ["BASE", "AVAIL"] }, { mnemonic := "KIND_RD", opc := 0x05 },
   { mnemonic := "FSIZE_RD", opc := 0x06 }, { mnemonic := "HLEN_RD", opc := 0x07 },
   { mnemonic := "OFFSET_RD", opc := 0x08, idxNames := fieldNames, idxCount := 11 },
   { mnemonic := "FC_RD", opc := 0x10 }, { mnemonic := "FC_WR", opc := 0x11, takesData := true },
   { mnemonic := "FCF_RD", opc := 0x12, sels := fcFieldNames },
   { mnemonic := "FCF_WR", opc := 0x13, sels := fcFieldNames, takesData := true },
   { mnemonic := "FLAG_RD", opc := 0x14, sels := flagNames },
   { mnemonic := "FLAG_WR", opc := 0x15, sels := flagNames, takesData := true },
   { mnemonic := "DUR_RD", opc := 0x18 }, { mnemonic := "DUR_WR", opc := 0x19, takesData := true }]

/-- The rows of 30_encoding R68, opcodes 0x20 to 0x2F. -/
def asmRowsMid : List AsmRow :=
  [{ mnemonic := "ADDR_RD", opc := 0x20, sels := slotNames },
   { mnemonic := "ADDR_WR", opc := 0x21, sels := slotNames, takesData := true },
   { mnemonic := "ROLE_RD", opc := 0x22, sels := roleNames },
   { mnemonic := "ROLE_WR", opc := 0x23, sels := roleNames, takesData := true },
   { mnemonic := "SC_RD", opc := 0x28 }, { mnemonic := "SC_WR", opc := 0x29, takesData := true },
   { mnemonic := "SCF_RD", opc := 0x2A, sels := seqFieldNames },
   { mnemonic := "SCF_WR", opc := 0x2B, sels := seqFieldNames, takesData := true },
   { mnemonic := "QOS_RD", opc := 0x2C }, { mnemonic := "QOS_WR", opc := 0x2D, takesData := true },
   { mnemonic := "QSF_RD", opc := 0x2E, sels := qosFieldNames },
   { mnemonic := "QSF_WR", opc := 0x2F, sels := qosFieldNames, takesData := true }]

/-- The rows of 30_encoding R68, opcodes 0x30 to 0x3A. -/
def asmRowsHigh : List AsmRow :=
  [{ mnemonic := "BAC_RD", opc := 0x30 }, { mnemonic := "BAC_WR", opc := 0x31, takesData := true },
   { mnemonic := "BACF_RD", opc := 0x32, sels := bacFieldNames },
   { mnemonic := "BACF_WR", opc := 0x33, sels := bacFieldNames, takesData := true },
   { mnemonic := "SSC_RD", opc := 0x34 }, { mnemonic := "SSC_WR", opc := 0x35, takesData := true },
   { mnemonic := "SSCF_RD", opc := 0x36, sels := seqFieldNames },
   { mnemonic := "SSCF_WR", opc := 0x37, sels := seqFieldNames, takesData := true },
   { mnemonic := "BMP_LEN_RD", opc := 0x38 }, { mnemonic := "BMP_RD", opc := 0x39, idxCount := 64 },
   { mnemonic := "BMP_WR", opc := 0x3A, idxCount := 64, takesData := true }]

/-- A selector or index operand: its name's place in the list, or a number below the count. -/
def asmPick (names : List String) (count : Nat) : AsmOperand → Option Nat
  | .name n => names.idxOf? n
  | .num n => if n < count then some n else none

/-- Take the selector or index operand, if the row has one: its value, and the operands left. -/
def asmTake (names : List String) (count : Nat) (ops : List AsmOperand) : Option (Nat × List AsmOperand) :=
  if count = 0 then some (0, ops)
  else match ops with
    | [] => none
    | o :: rest => (asmPick names count o).map fun n => (n, rest)

/-- The write data operand: the last one, a number of 48 bits, where the row takes one, and no operand left over. -/
def asmData (takesData : Bool) : List AsmOperand → Option Data
  | [] => if takesData then none else some 0
  | [.num n] => if takesData ∧ n < 2 ^ 48 then some (BitVec.ofNat 48 n) else none
  | _ => none

/-- The command word and write data of a row with these operands. -/
def asmRow (r : AsmRow) (ops : List AsmOperand) : Option (Word × Data) :=
  match asmTake r.sels r.sels.length ops with
  | none => none
  | some (sel, ops) => match asmTake r.idxNames r.idxCount ops with
    | none => none
    | some (idx, ops) => (asmData r.takesData ops).map fun d => (wordOf r.opc sel idx, d)

/-- `DECODE base, avail` (30_encoding R71): two numbers of 24 bits. -/
def asmDecode : List AsmOperand → Option (Word × Data)
  | [.num b, .num a] =>
    if b < 2 ^ 24 ∧ a < 2 ^ 24 then some (wordOf 0x01 0 0, decodeData (BitVec.ofNat 24 b) (BitVec.ofNat 24 a)) else none
  | _ => none

/-- The command word and write data of an assembly line, or none where the line is not one of R71. -/
def assemble (mnemonic : String) (ops : List AsmOperand) : Option (Word × Data) :=
  if mnemonic = "DECODE" then asmDecode ops
  else match (asmRowsLow ++ asmRowsMid ++ asmRowsHigh).find? fun r => decide (r.mnemonic = mnemonic) with
    | none => none
    | some r => asmRow r ops

end Sys2Proof.Machine
end

