-- ==== Sys2Proof/Safety.lean ====
section
/-! DEFINITION. The invariants of the machine: what 10_state R25, R26 and 93_implementation_defined V2 say of the registers,
the canonical form of BUF, and the header-length invariant of 10_state R27. -/
namespace Sys2Proof.Machine

/-- What one instance's registers satisfy in every reachable state. -/
structure Regs.Ok (r : Regs) (bufSize : Nat) : Prop where
  /-- 10_state R25: with no frame attached the window registers are 0. -/
  detached : r.valid = false → r.kind = .none ∧ r.hlen = 0 ∧ r.base = 0 ∧ r.avail = 0
  /-- 10_state R26: with a frame attached KIND is one of 1..6 and the window lies in BUF. -/
  attached : r.valid = true → r.kind ≠ .none ∧ 2 ≤ r.avail.toNat ∧ r.base.toNat + r.avail.toNat ≤ bufSize
  /-- 10_state R26: a BA window holds the BA Control word. -/
  baWindow : r.valid = true → r.kind = .ba → 18 ≤ r.avail.toNat
  /-- 93_implementation_defined V2: code 7 is never produced. -/
  sticky7 : r.sticky.getLsbD 6 = false

/-- What the machine satisfies in every reachable state. -/
structure State.Inv (s : State) : Prop where
  /-- 00_scope R8: the range of BUF_SIZE. -/
  size : Config.minBufSize ≤ s.bufSize ∧ s.bufSize ≤ Config.maxBufSize
  /-- The registers of the instance the host now drives. -/
  regs : s.toRegs.Ok s.bufSize
  /-- The registers of every other instance (60_exceptions R317). -/
  others : ∀ r ∈ s.others, r.Ok s.bufSize
  /-- BUF is in canonical form. -/
  canonical : Memory.wf s.buf = true
  /-- Every listed byte is a byte of BUF (20_memory R40). -/
  inBuf : ∀ c ∈ s.buf, c.1 < s.bufSize

/-- 10_state R27: while a frame is attached HLEN is FrameSize(). A host write of BUF may break it (70 R410); no command
does. -/
def State.HlenCurrent (s : State) : Prop :=
  s.valid = true → ∃ n, s.frameSize = .ok n ∧ s.hlen.toNat = n

/-! ## The words of the rules

The live values the rules of spec/ speak of, as plain functions of a state whose window holds them (10_state R26); statements
are written with these, and do not name the meanings' own operations. -/

/-- The Frame Control word in BUF (41_frame_control R100). -/
def State.fcWord (s : State) : Word := (memRead s.buf s.base.toNat 2).setWidth 16

/-- The BA/BAR Control word in BUF (42_field_layout R125). -/
def State.bacWord (s : State) : Word := (memRead s.buf (s.base.toNat + 16) 2).setWidth 16

/-- The 16-bit word in BUF at a window offset. -/
def State.wordAt (s : State) (off : Nat) : Word := (memRead s.buf (s.base.toNat + off) 2).setWidth 16

/-- The data kinds (10_state R23). -/
abbrev dataKind (k : Kind) : Prop := k = .data ∨ k = .qosData ∨ k = .qosNull

/-- The four-address condition (42_field_layout R122): a data kind, and TO_DS and FROM_DS both 1. -/
def State.fourAddress (s : State) : Bool := decide (dataKind s.kind) && s.fcWord.getLsbD 8 && s.fcWord.getLsbD 9

/-- The compressed-bitmap bit (42_field_layout R125). -/
def State.compressed (s : State) : Bool := s.bacWord.getLsbD 2

/-- The table of 42_field_layout R134, by kind, both-DS flags and compressed-bitmap bit. -/
def headerLenOf (k : Kind) (both compr : Bool) : Nat :=
  match k, both, compr with
  | .none, _, _ => 0
  | .mgmt, _, _ => 24
  | .data, false, _ => 24
  | .data, true, _ => 30
  | .qosData, false, _ => 26
  | .qosData, true, _ => 32
  | .qosNull, false, _ => 26
  | .qosNull, true, _ => 32
  | .bar, _, _ => 20
  | .ba, _, true => 28
  | .ba, _, false => 84

/-- The header length of the attached frame (42_field_layout R126, R134). -/
def State.headerLen (s : State) : Nat :=
  headerLenOf s.kind (s.fcWord.getLsbD 8 && s.fcWord.getLsbD 9) s.compressed

/-- The opcode map (30_encoding R68) with the greatest SEL (R63) and IDX (R64) of each opcode: opcodes 0x00 to 0x19. -/
def opcodeMapLow : List (Nat × Nat × Nat) :=
  [(0x00, 0, 0), (0x01, 0, 0), (0x02, 0, 0), (0x03, 0, 0), (0x04, 1, 0), (0x05, 0, 0), (0x06, 0, 0), (0x07, 0, 0),
   (0x08, 0, 10), (0x10, 0, 0), (0x11, 0, 0), (0x12, 2, 0), (0x13, 2, 0), (0x14, 7, 0), (0x15, 7, 0), (0x18, 0, 0),
   (0x19, 0, 0)]

/-- The same, opcodes 0x20 to 0x3A. -/
def opcodeMapHigh : List (Nat × Nat × Nat) :=
  [(0x20, 3, 0), (0x21, 3, 0), (0x22, 4, 0), (0x23, 4, 0), (0x28, 0, 0), (0x29, 0, 0), (0x2A, 1, 0), (0x2B, 1, 0),
   (0x2C, 0, 0), (0x2D, 0, 0), (0x2E, 4, 0), (0x2F, 4, 0), (0x30, 0, 0), (0x31, 0, 0), (0x32, 3, 0), (0x33, 3, 0),
   (0x34, 0, 0), (0x35, 0, 0), (0x36, 1, 0), (0x37, 1, 0), (0x38, 0, 0), (0x39, 0, 63), (0x3A, 0, 63)]

/-- A legal command word (30_encoding R65): RSV = 0, and SEL and IDX within the range of a listed opcode. -/
def legalWord (w : Word) : Bool :=
  !rsvOf w && (opcodeMapLow ++ opcodeMapHigh).any fun r =>
    r.1 == opcOf w && decide (selOf w ≤ r.2.1) && decide (idxOf w ≤ r.2.2)

end Sys2Proof.Machine
end

