-- ==== Sys2Proof/Certificates/Slice0/Obligations.lean ====
section
/-! DEFINITION. The statements for the provers, and the words they are written in. The tables of spec/ that a statement needs are
written out here again, from the spec and not from the model's own tables. -/
namespace Sys2Proof.Claims
open Sys2Proof.Machine

/-! ## Words of the statements -/

/-- BAR and BA: the kinds with two addresses (42_field_layout R123). -/
abbrev blockAck (s : State) : Prop := s.kind = .bar ∨ s.kind = .ba

/-- TO_DS = FROM_DS = 1 in the live Frame Control word. -/
def bothFlags (w : Word) : Bool := w.getLsbD 8 && w.getLsbD 9

/-- The numbers of KIND (10_state R23). -/
def kindNumber : Kind → Nat
  | .none => 0 | .mgmt => 1 | .data => 2 | .qosData => 3 | .qosNull => 4 | .bar => 5 | .ba => 6

/-- The numbers of the errors (60_exceptions R300). -/
def errNumber : ErrCode → Nat
  | .ok => 0 | .outOfRange => 1 | .unsupportedSubtype => 2 | .inconsistentFlags => 3 | .fieldAbsent => 4 | .notDecoded => 5
  | .badCommand => 6

/-- The answer of a read of the n bytes at window offset `off` (20_memory R43, 00_scope R11). -/
def readOut (s : State) (off n : Nat) : State :=
  if s.avail.toNat < off + n then s.fail .outOfRange
  else s.complete (memRead s.buf (s.base.toNat + off) n)

/-- The answer of a write of the n bytes at window offset `off`, after which FrameSize() is `len` (42_field_layout R129). -/
def writeOut (s : State) (off n : Nat) (v : Data) (len : Nat) : State :=
  if s.avail.toNat < off + n then s.fail .outOfRange
  else ((s.setBuf (memWrite s.buf (s.base.toNat + off) n v)).setHlen (BitVec.ofNat 8 len)).complete 0

/-- Bits lsb+n-1 : lsb of a header word, as a number. -/
def bitsOf (w : Word) (lsb n : Nat) : Data := BitVec.ofNat 48 (w.toNat / 2 ^ lsb % 2 ^ n)

/-- The answer of a read of n bits of the header word at window offset `off` (41_frame_control R109). -/
def subReadOut (s : State) (off : Nat) (b : Nat × Nat) : State :=
  if s.avail.toNat < off + 2 then s.fail .outOfRange else s.complete (bitsOf (s.wordAt off) b.1 b.2)

/-- `w'` is `w` with the n bits from `lsb` on taken from `x`, and every other bit unchanged (41_frame_control R109). -/
def IsPut (w' w : Word) (b : Nat × Nat) (x : Data) : Prop :=
  ∀ i < 16, w'.getLsbD i = if b.1 ≤ i ∧ i < b.1 + b.2 then x.getLsbD (i - b.1) else w.getLsbD i

/-- (lsb, width) of the Frame Control sub-fields (41_frame_control R105). -/
def fcBits : FcField → Nat × Nat
  | .ver => (0, 2) | .ftype => (2, 2) | .subtype => (4, 4)

/-- The bit of a flag (41_frame_control R102), as a sub-field one bit wide. -/
def flagBits : Flag → Nat × Nat
  | .toDs => (8, 1) | .fromDs => (9, 1) | .moreFrag => (10, 1) | .retry => (11, 1)
  | .pwrMgmt => (12, 1) | .moreData => (13, 1) | .protectedFrame => (14, 1) | .order => (15, 1)

/-- (lsb, width) of FRAG and SEQ (44_control_subfields R171, R186). -/
def seqBits : SeqField → Nat × Nat
  | .frag => (0, 4) | .seq => (4, 12)

/-- (lsb, width) of the QoS Control sub-fields (44_control_subfields R176). -/
def qosBits : QosField → Nat × Nat
  | .tid => (0, 4) | .eosp => (4, 1) | .ackPolicy => (5, 2) | .amsdu => (7, 1) | .txop => (8, 8)

/-- (lsb, width) of the BA/BAR Control sub-fields (44_control_subfields R181). -/
def bacBits : BacField → Nat × Nat
  | .policy => (0, 1) | .multiTid => (1, 1) | .compr => (2, 1) | .tid => (12, 4)

/-- Where a field lies, or why it does not (42_field_layout R121 to R125, R127), written field by field. -/
def fieldPlace (s : State) (f : Field) : Except ErrCode Nat :=
  match f with
  | .fixed .fc => .ok 0
  | .fixed .dur => .ok 2
  | .fixed .a1 => .ok 4
  | .fixed .a2 => .ok 10
  | .fixed .a3 => if blockAck s then .error .fieldAbsent else .ok 16
  | .fixed .sc => if blockAck s then .error .fieldAbsent else .ok 22
  | .fixed .a4 =>
    if dataKind s.kind then (if s.fourAddress then .ok 24 else .error .fieldAbsent)
    else if bothFlags s.fcWord then .error .inconsistentFlags else .error .fieldAbsent
  | .fixed .qos => if s.kind = .qosData ∨ s.kind = .qosNull then .ok (if s.fourAddress then 30 else 24) else .error .fieldAbsent
  | .fixed .bac => if blockAck s then .ok 16 else .error .fieldAbsent
  | .fixed .ssc => if blockAck s then .ok 18 else .error .fieldAbsent
  | .bmp => if s.kind = .ba then .ok 20 else .error .fieldAbsent

/-- The answer of OFFSET_RD (42_field_layout R133): no bounds check. -/
def offsetOut (s : State) (f : Field) : State :=
  match fieldPlace s f with
  | .ok o => s.complete (BitVec.ofNat 48 o)
  | .error e => s.fail e

/-- The field of an address slot (43_dispatch_addresses R148). -/
def slotField : Slot → Field
  | .a1 => .fixed .a1 | .a2 => .fixed .a2 | .a3 => .fixed .a3 | .a4 => .fixed .a4

/-- The window offset of the slot that plays a role, or none (43_dispatch_addresses R151). -/
def rolePlace (s : State) (r : Role) : Option Nat :=
  let toDs := s.fcWord.getLsbD 8
  let fromDs := s.fcWord.getLsbD 9
  match r with
  | .ra => some 4
  | .ta => some 10
  | .da => if blockAck s then none else if dataKind s.kind ∧ toDs then some 16 else some 4
  | .sa =>
    if blockAck s then none
    else if dataKind s.kind ∧ fromDs then (if toDs then some 24 else some 16)
    else some 10
  | .bssid =>
    if blockAck s then none
    else if dataKind s.kind then
      (if toDs then (if fromDs then none else some 4) else if fromDs then some 10 else some 16)
    else some 16

/-- The discriminator's table (43_dispatch_addresses R141). -/
def kindOf (ftype subtype : Nat) : Option Kind :=
  match ftype, subtype with
  | 0, _ => some .mgmt
  | 1, 8 => some .bar
  | 1, 9 => some .ba
  | 2, 0 => some .data
  | 2, 8 => some .qosData
  | 2, 12 => some .qosNull
  | _, _ => none

/-- The state DECODE leaves (43_dispatch_addresses R140), base and length taken from `cmd_wdata` (30_encoding R62). -/
def decodeOut (s : State) : State :=
  let b := s.wdata.toNat % 2 ^ 24
  let a := s.wdata.toNat / 2 ^ 24
  let w := (memRead s.buf b 2).toNat
  if s.bufSize < b + a ∨ a < 2 then s.invalidate.fail .outOfRange
  else match kindOf (w / 4 % 4) (w / 16 % 16) with
    | none => s.invalidate.fail .unsupportedSubtype
    | some k =>
      if k = .ba ∧ a < 18 then s.invalidate.fail .outOfRange
      else
        let t := s.setWindow (BitVec.ofNat 24 b) (BitVec.ofNat 24 a) k
        (t.setHlen (BitVec.ofNat 8 t.headerLen)).complete (BitVec.ofNat 48 (kindNumber k))

/-- The length of the bitmap of a BA frame (42_field_layout R125). -/
def bitmapBytes (s : State) : Nat := if s.compressed then 8 else 64

/-- Why bitmap byte `i` cannot be reached, in the order of 45_block_ack_bitmap R202; none if it can. -/
def bitmapError (s : State) (i : Nat) : Option ErrCode :=
  if s.kind ≠ .ba then some .fieldAbsent
  else if bitmapBytes s ≤ i then some .fieldAbsent
  else if s.avail.toNat < 21 + i then some .outOfRange
  else none

/-- The commands that need a frame (30_encoding R68). -/
def needsFrame : Instr → Bool
  | .nop | .decode | .statusRd | .winRd _ | .kindRd => false
  | _ => true

/-- The commands that write a header field or a bitmap byte (30_encoding R68). -/
def isFieldWrite : Instr → Bool
  | .fcWr | .fcfWr _ | .flagWr _ | .durWr | .addrWr _ | .roleWr _ | .scWr | .scfWr _ | .qosWr | .qsfWr _ | .bacWr | .bacfWr _
  | .sscWr | .sscfWr _ | .bmpWr _ => true
  | _ => false

/-- The commands that only read: all but DECODE, COMMIT and the writes. -/
def isRead (i : Instr) : Bool := !isFieldWrite i && i != .decode && i != .commit

/-- The address a write stores to and how many bytes, computed as the meanings compute it. -/
def storeSpan (i : Instr) (s : State) : Except Stop (Nat × Nat) :=
  match i with
  | .fcWr | .fcfWr _ | .flagWr _ => (s.locate .fc).map fun a => (a, 2)
  | .durWr => (s.locate .dur).map fun a => (a, 2)
  | .addrWr r => (s.locate (Slot.field r)).map fun a => (a, 6)
  | .roleWr r => (s.roleField r).bind fun f => (s.locate f).map fun a => (a, 6)
  | .scWr | .scfWr _ => (s.locate .sc).map fun a => (a, 2)
  | .qosWr | .qsfWr _ => (s.locate .qos).map fun a => (a, 2)
  | .bacWr | .bacfWr _ => (s.locate .bac).map fun a => (a, 2)
  | .sscWr | .sscfWr _ => (s.locate .ssc).map fun a => (a, 2)
  | .bmpWr i => (s.locateBitmap i).map fun a => (a, 1)
  | _ => .error (.raised .badCommand)

/-- A whole-field write, the read of the same field, and the field's width in bits. -/
def fieldPair (w r : Instr) (bits : Nat) : Prop :=
  (w, r, bits) ∈ [(Instr.fcWr, Instr.fcRd, 16), (.durWr, .durRd, 16), (.addrWr .a1, .addrRd .a1, 48),
    (.addrWr .a2, .addrRd .a2, 48), (.addrWr .a3, .addrRd .a3, 48), (.addrWr .a4, .addrRd .a4, 48), (.scWr, .scRd, 16),
    (.qosWr, .qosRd, 16), (.bacWr, .bacRd, 16), (.sscWr, .sscRd, 16)]

/-- The registers R306 protects are as before: all but LAST_ERR and STICKY, with the other instances and the parameters. -/
def sameRegisters (s t : State) : Prop :=
  t.valid = s.valid ∧ t.kind = s.kind ∧ t.hlen = s.hlen ∧ t.base = s.base ∧ t.avail = s.avail

/-- The words of an opcode that uses SEL (30_encoding R61, R63): the word with SEL = n is the n-th command listed, and a SEL
with no command listed raises BAD_COMMAND. -/
def SelWords (opc : Nat) (is : List Instr) : Prop :=
  ∀ n < 8, match is[n]? with
    | some i => encode i = BitVec.ofNat 16 (opc + 64 * n) ∧ decodeWord (BitVec.ofNat 16 (opc + 64 * n)) = .ok i
    | none => ∀ s d, runCommand (BitVec.ofNat 16 (opc + 64 * n)) d s = .next ((s.setWdata d).fail .badCommand)

/-- The same for an opcode that uses IDX (30_encoding R61, R64). -/
def IdxWords (opc : Nat) (is : List Instr) : Prop :=
  ∀ n < 64, match is[n]? with
    | some i => encode i = BitVec.ofNat 16 (opc + 512 * n) ∧ decodeWord (BitVec.ofNat 16 (opc + 512 * n)) = .ok i
    | none => ∀ s d, runCommand (BitVec.ofNat 16 (opc + 512 * n)) d s = .next ((s.setWdata d).fail .badCommand)

/-- Every byte of BUF reads as before. -/
def sameBytes (s t : State) : Prop := ∀ a, Memory.byte t.buf a = Memory.byte s.buf a

/-- What no command touches: the other instances' registers (60_exceptions R317), BUF_SIZE, the write-data bus, the host's
moves to come, and the model's own counter. -/
def sameSurroundings (s t : State) : Prop :=
  t.others = s.others ∧ t.bufSize = s.bufSize ∧ t.wdata = s.wdata ∧ t.host = s.host ∧ t.draws = s.draws

end Sys2Proof.Claims

open Sys2Proof Sys2Proof.Machine Sys2Proof.Claims

/-! ## Encoding -/

/-- Decoding the encoder's word of a well-formed instruction gives it back (30_encoding, sections 2, 3 and 5). -/
def Obligations.EncodeThenDecodeIsIdentity : Prop :=
  ∀ i : Instr, i.wellFormed = true → decodeWord (encode i) = .ok i

/-- A word that decodes is the encoder's word of what it decodes to, which is well-formed: no word has two meanings and no
two words one (30_encoding R70, an inference the spec marks as derived). -/
def Obligations.DecodedWordReencodes : Prop :=
  ∀ (w : Word) (i : Instr), decodeWord w = .ok i → encode i = w ∧ i.wellFormed = true

/-- Words the spec writes out, from every family, decode to what they stand for: 0x0015, 0x00E0, 0x0E39, 0x0E08 and 0x0001 in
30_encoding R71, 0x0044 in 46_status R212, 0x006A in 44_control_subfields R174, and 0x00B3 in R185 there; their fields are those
of 30_encoding R61, R63 and R64. -/
def Obligations.SpelledOutWordsDecode : Prop :=
  decodeWord 0x0015 = .ok (.flagWr .toDs) ∧ decodeWord 0x00E0 = .ok (.addrRd .a4) ∧
  decodeWord 0x0E39 = .ok (.bmpRd 7) ∧ decodeWord 0x0E08 = .ok (.offsetRd (.fixed .qos)) ∧
  decodeWord 0x0001 = .ok .decode ∧ decodeWord 0x0044 = .ok (.winRd .avail) ∧
  decodeWord 0x006A = .ok (.scfRd .seq) ∧ decodeWord 0x00B3 = .ok (.bacfWr .compr)

/-- 30_encoding R65: a command word is legal exactly when RSV = 0, OPC is in the map of R68, and SEL and IDX are within the
ranges of R63 and R64 for that opcode (0 where unused); legality depends on the word alone. -/
def Obligations.LegalWordsAreThoseOfTheMap : Prop :=
  ∀ w : Word, (∃ i, decodeWord w = .ok i) ↔ legalWord w = true

/-! ## The step -/

/-- A step consumes the oldest of the host's moves: where it is a command whose word decodes to `i`, the step is `exec i`, with
the write data on the bus; any other move does what `runMove` says; with no move to come the step only withdraws the response.
The host's moves are the model's own field (log 1). -/
def Obligations.StepRunsTheDecodedCommand : Prop :=
  (∀ (s : State) (w : Word) (d : Data) (rest : List HostMove) (i : Instr),
    s.host = .command w d :: rest → decodeWord w = .ok i → step s = exec i ((s.setHost rest).setWdata d)) ∧
  (∀ (s : State) (m : HostMove) (rest : List HostMove), s.host = m :: rest → step s = runMove m (s.setHost rest)) ∧
  (∀ s : State, s.host = [] → step s = .next s.idle)

/-- 60_exceptions R304 with 30_encoding R65, R69: an illegal word raises BAD_COMMAND, whatever the state and the write data,
and has no other effect. -/
def Obligations.IllegalWordRaisesBadCommand : Prop :=
  ∀ (s : State) (w : Word) (d : Data), legalWord w = false →
    runCommand w d s = .next ((s.setWdata d).fail .badCommand)

/-- 70_reset_and_hazards R400: `rst` sets every register to its reset value and leaves BUF as it was; rsp_valid is 0. The last
two clauses are the model's choice, not R400's: `rst` reaches the current instance alone, so the others keep their registers
(log 6), and BUF_SIZE is a field of State that no step changes (log 5). -/
def Obligations.ResetClearsTheRegistersAndKeepsTheBuffer : Prop :=
  ∀ s : State, ∃ t, runMove .reset s = .next t ∧ t.valid = false ∧ t.kind = .none ∧ t.hlen = 0 ∧ t.base = 0 ∧
      t.avail = 0 ∧ t.lastErr = .ok ∧ t.sticky = 0 ∧ t.buf = s.buf ∧ t.rsp = none ∧ t.others = s.others ∧ t.bufSize = s.bufSize

/-- 70_reset_and_hazards R401: a reset during a command gives no response and sets every register to its reset value; each
byte the command would have changed holds, by a free choice of its own, its old value or the one the command would have
written, and every other byte is as it was. -/
def Obligations.ResetDuringACommandTearsItsBytes : Prop :=
  ∀ (s t : State) (w : Word) (d : Data), s.Inv → runCommand w d s = .next t →
    ∃ u, runMove (.resetDuring w d) s = .next u ∧ u.toRegs = Regs.reset ∧ u.rsp = none ∧
      ∃ k : Nat → Nat,
        (∀ a b, Memory.byte s.buf a ≠ Memory.byte t.buf a → Memory.byte s.buf b ≠ Memory.byte t.buf b → k a = k b → a = b) ∧
        ∀ a, Memory.byte u.buf a =
          if Config.resetDraw (s.draws + k a) then Memory.byte t.buf a else Memory.byte s.buf a

/-- 70_reset_and_hazards R410: after the host writes a byte of BUF directly, HLEN_RD gives the old length, FSIZE_RD the live
one at once, and COMMIT makes HLEN the live one; so does any successful write or DECODE, and no other command writes HLEN. -/
def Obligations.HlenIsStaleAfterAHostWrite : Prop :=
  ∀ (s : State) (a : Addr) (b : Byte), s.Inv → s.valid = true → a.toNat < s.bufSize →
    ∃ t, runMove (.writeBuf a b) s = .next t ∧ t.toRegs = s.toRegs ∧
      (∀ x, Memory.byte t.buf x = if x = a.toNat then b else Memory.byte s.buf x) ∧
      exec .hlenRd t = .next (t.complete (s.hlen.setWidth 48)) ∧
      exec .fsizeRd t = .next (t.complete (BitVec.ofNat 48 t.headerLen)) ∧
      exec .commit t = .next ((t.setHlen (BitVec.ofNat 8 t.headerLen)).complete (BitVec.ofNat 48 t.headerLen)) ∧
      ∀ i u, exec i t = .next u →
        if i = .decode ∨ i = .commit ∨ isFieldWrite i then u.lastErr = .ok → u.hlen.toNat = u.headerLen
        else u.hlen = s.hlen

/-- 60_exceptions R317: turning to another instance brings its registers forward, keeps those of the instance left behind,
and leaves BUF as it was; turning back restores both. The place an instance has in the list is the model's (log 6). -/
def Obligations.InstancesKeepTheirOwnRegisters : Prop :=
  ∀ (s : State) (k : Nat) (r : Regs), s.others[k]? = some r →
    ∃ t, runMove (.selectInstance k) s = .next t ∧ t.toRegs = r ∧ t.others[k]? = some s.toRegs ∧ t.buf = s.buf ∧
      (∀ j, j ≠ k → t.others[j]? = s.others[j]?) ∧
      ∃ u, runMove (.selectInstance k) t = .next u ∧ u.toRegs = s.toRegs ∧ u.others = s.others

/-! ## Whole-machine rules -/

/-- Every step keeps the invariant of 10_state, section 3 (R25, R26, inferences the spec marks as derived), with STICKY[6] = 0
and the canonical form of BUF (the model's own). -/
def Obligations.EveryStepKeepsTheInvariant : Prop :=
  ∀ s t : State, s.Inv → step s = .next t → t.Inv

/-- The reset state meets that invariant, for every BUF_SIZE of 00_scope R8 and every number of other instances. -/
def Obligations.ResetMeetsTheInvariant : Prop :=
  (∀ b n : Nat, 2 ≤ b → b ≤ 2 ^ 24 → (State.resetWith b n).Inv) ∧ State.reset.Inv

/-- 10_state R27: HLEN = FrameSize() while a frame is attached is kept by every command, whatever its word. -/
def Obligations.EveryCommandKeepsHlenCurrent : Prop :=
  ∀ (s t : State) (w : Word) (d : Data), s.Inv → s.HlenCurrent → runCommand w d s = .next t →
    t.HlenCurrent ∧ (t.valid = true → t.hlen.toNat = t.headerLen)

/-- 60_exceptions R313: every command, legal or not, ends with exactly one response, and the block accepts the next one. -/
def Obligations.EveryCommandAnswersOnce : Prop :=
  ∀ (s : State) (w : Word) (d : Data), s.Inv →
    ∃ t r, runCommand w d s = .next t ∧ t.rsp = some r ∧ t.Inv

/-- 60_exceptions R303: a command that needs a frame raises NOT_DECODED when VALID = 0. -/
def Obligations.NoFrameRaisesNotDecoded : Prop :=
  ∀ (s : State) (i : Instr), needsFrame i = true → s.valid = false → exec i s = .next (s.fail .notDecoded)

/-- 60_exceptions R306: a command that raises an error changes no byte of BUF and no register but LAST_ERR and STICKY, answers
the code with data 0, and, if it is DECODE, detaches the frame. -/
def Obligations.AnErrorLeavesBufferAndRegisters : Prop :=
  ∀ (s t : State) (w : Word) (d : Data), runCommand w d s = .next t → t.lastErr ≠ .ok →
    t.buf = s.buf ∧ sameSurroundings (s.setWdata d) t ∧ t.rsp = some { err := t.lastErr, data := 0 } ∧
    (∀ b, t.sticky.getLsbD b = (s.sticky.getLsbD b || decide (errNumber t.lastErr = b + 1))) ∧
    (decodeWord w ≠ .ok .decode → sameRegisters s t) ∧
    (decodeWord w = .ok .decode → t.valid = false ∧ t.kind = .none ∧ t.hlen = 0 ∧ t.base = 0 ∧ t.avail = 0)

/-- 60_exceptions R307: every command sets LAST_ERR to its own code, which is the code of its response; STICKY gains the bit of
that code and loses none; no move of the host clears a STICKY bit but reset. Turning to another instance (log 6) is left out of
the second part: it brings that instance's own STICKY forward. -/
def Obligations.StatusBookkeeping : Prop :=
  (∀ (s t : State) (w : Word) (d : Data), runCommand w d s = .next t →
    (∃ v, t.rsp = some { err := t.lastErr, data := v }) ∧
    ∀ b, t.sticky.getLsbD b = (s.sticky.getLsbD b || decide (errNumber t.lastErr = b + 1))) ∧
  (∀ (s t : State) (m : HostMove) (b : Nat), (∀ k, m ≠ .selectInstance k) → runMove m s = .next t →
    s.sticky.getLsbD b = true → t.sticky.getLsbD b = false → m = .reset ∨ ∃ w d, m = .resetDuring w d)

/-- 43_dispatch_addresses R145: KIND changes only at DECODE (and reset); a write of TYPE or SUBTYPE, by FCF_WR, by FC_WR or by
the host, changes neither KIND nor the layout. The clause on VALID, BASE and AVAIL is not R145's: the register table of 10_state
R22 lists DECODE and reset alone as what writes them (10_state R26 infers the same). -/
def Obligations.OnlyDecodeChangesTheKind : Prop :=
  (∀ (s t : State) (i : Instr), i ≠ .decode → exec i s = .next t →
    t.kind = s.kind ∧ t.valid = s.valid ∧ t.base = s.base ∧ t.avail = s.avail) ∧
  (∀ (s t : State) (i : Instr), s.Inv → s.valid = true → exec i s = .next t →
    ((∃ f, i = .fcfWr f) ∨ (i = .fcWr ∧ s.wdata.getLsbD 8 = s.fcWord.getLsbD 8 ∧ s.wdata.getLsbD 9 = s.fcWord.getLsbD 9)) →
    t.headerLen = s.headerLen ∧ ∀ g, fieldPlace t g = fieldPlace s g) ∧
  (∀ (s t : State) (a : Addr) (b : Byte), s.Inv → s.valid = true → runMove (.writeBuf a b) s = .next t →
    t.kind = s.kind ∧ (a = s.base → t.headerLen = s.headerLen ∧ ∀ g, fieldPlace t g = fieldPlace s g))

/-- The frame of every command that stores nothing: every byte of BUF reads as before, and so does every register but the
ones named: LAST_ERR and STICKY for a read, and HLEN too for COMMIT. -/
def Obligations.ReadsChangeNothingButStatus : Prop :=
  ∀ (s t : State) (i : Instr), isFieldWrite i = false → exec i s = .next t →
    sameBytes s t ∧ sameSurroundings s t ∧ (isRead i = true → sameRegisters s t) ∧
    (i = .commit → t.valid = s.valid ∧ t.kind = s.kind ∧ t.base = s.base ∧ t.avail = s.avail)

/-- The frame of every command that writes: every register but HLEN, LAST_ERR and STICKY is as before, every byte outside the
field it stores to reads as before, and a write that finds no place to store to leaves every byte. -/
def Obligations.WritesTouchOnlyTheirField : Prop :=
  ∀ (s t : State) (i : Instr), s.Inv → isFieldWrite i = true → exec i s = .next t →
    t.valid = s.valid ∧ t.kind = s.kind ∧ t.base = s.base ∧ t.avail = s.avail ∧ sameSurroundings s t ∧
    (∀ a n, storeSpan i s = .ok (a, n) → ∀ x, x < a ∨ a + n ≤ x → Memory.byte t.buf x = Memory.byte s.buf x) ∧
    (∀ e, storeSpan i s = .error e → sameBytes s t)

/-- 00_scope R11: MemRead composes its n bytes little-endian; MemWrite stores byte k of the value at address a+k, for every
k < n, and touches no other byte. -/
def Obligations.MemReadAndMemWriteByByte : Prop :=
  (∀ (m : Memory) (a n : Nat), n ≤ 6 →
    (memRead m a n).toNat = ((List.range n).map fun k => (Memory.byte m (a + k)).toNat * 2 ^ (8 * k)).sum) ∧
  (∀ (m : Memory) (a n : Nat) (v : Data) (x : Nat), Memory.wf m = true →
    Memory.byte (memWrite m a n v) x =
      if a ≤ x ∧ x < a + n then v.extractLsb' (8 * (x - a)) 8 else Memory.byte m x)

/-- Writing a field and reading it back yields the written value, for every field the layout defines (20_memory R48,
41_frame_control R110, 44_control_subfields R191). -/
def Obligations.WrittenFieldReadsBack : Prop :=
  ∀ (s t : State) (w r : Instr) (bits : Nat), fieldPair w r bits → s.Inv → exec w s = .next t → t.lastErr = .ok →
    exec r t = .next (t.complete (BitVec.ofNat 48 (s.wdata.toNat % 2 ^ bits)))

/-- 42_field_layout R135: offsets and header length depend only on KIND, FC[9:8] and, for BA, BAC[2]; reading the length twice
gives the same value; the bitmap length is 8 or 64 and nothing else. -/
def Obligations.LayoutIsAPureFunctionOfTheFlags : Prop :=
  (∀ s u : State, s.Inv → u.Inv → s.valid = true → u.valid = true → s.kind = u.kind →
    s.fcWord.getLsbD 8 = u.fcWord.getLsbD 8 → s.fcWord.getLsbD 9 = u.fcWord.getLsbD 9 →
    (s.kind = .ba → s.bacWord.getLsbD 2 = u.bacWord.getLsbD 2) →
    ∃ n, exec .fsizeRd s = .next (s.complete n) ∧ exec .fsizeRd u = .next (u.complete n) ∧
      exec .fsizeRd (s.complete n) = .next ((s.complete n).complete n) ∧
      ∀ f, (∃ o, exec (.offsetRd f) s = .next (s.complete o) ∧ exec (.offsetRd f) u = .next (u.complete o)) ∨
        ∃ e, exec (.offsetRd f) s = .next (s.fail e) ∧ exec (.offsetRd f) u = .next (u.fail e)) ∧
  (∀ s t : State, s.Inv → s.valid = true → exec .bmpLenRd s = .next t → t.lastErr = .ok →
    t.rsp = some { err := .ok, data := 8 } ∨ t.rsp = some { err := .ok, data := 64 })

/-! ## Status and window (46_status) -/

/-- 46_status R210: NOP returns 0 and sets LAST_ERR to 0; STICKY stays. -/
def Obligations.NopReturnsZero : Prop :=
  encode .nop = 0x0000 ∧ ∀ s : State, exec .nop s = .next (s.complete 0)

/-- 46_status R211, 10_state R24: STATUS_RD returns VALID in bit 0, KIND in 3:1, LAST_ERR (before this command) in 6:4, STICKY
in 14:8, and 0 in every other bit. -/
def Obligations.StatusRdPacksTheRegisters : Prop :=
  encode .statusRd = 0x0003 ∧ ∀ s : State, exec .statusRd s = .next (s.complete
    (BitVec.ofNat 48 (s.valid.toNat + 2 * kindNumber s.kind + 16 * errNumber s.lastErr + 256 * s.sticky.toNat)))

/-- 46_status R212: WIN_RD returns BASE or AVAIL, both 0 while no frame is attached. -/
def Obligations.WinRdReturnsTheWindow : Prop :=
  SelWords 0x04 [.winRd .base, .winRd .avail] ∧
  (∀ s : State, exec (.winRd .base) s = .next (s.complete (s.base.setWidth 48)) ∧
    exec (.winRd .avail) s = .next (s.complete (s.avail.setWidth 48))) ∧
  ∀ s : State, s.Inv → s.valid = false → ∀ r, exec (.winRd r) s = .next (s.complete 0)

/-! ## Discriminator and addresses (43_dispatch_addresses) -/

/-- 43_dispatch_addresses R143: KIND_RD returns the number of the latched kind, 0 while no frame is attached. -/
def Obligations.KindRdReturnsTheLatchedKind : Prop :=
  encode .kindRd = 0x0005 ∧
  (∀ s : State, exec .kindRd s = .next (s.complete (BitVec.ofNat 48 (kindNumber s.kind)))) ∧
  ∀ s : State, s.Inv → s.valid = false → exec .kindRd s = .next (s.complete 0)

/-- 43_dispatch_addresses R140 to R142: DECODE checks the window, then the type, then the BA window; a success attaches the
frame, commits HLEN and returns KIND, a failure detaches whatever frame there was. -/
def Obligations.DecodeAttachesOrDetaches : Prop :=
  encode .decode = 0x0001 ∧ ∀ s : State, s.Inv → exec .decode s = .next (decodeOut s)

/-- 43_dispatch_addresses R146, R147: Duration is the word at offset 2 in every kind; a window shorter than 4 bytes raises
OUT_OF_RANGE. -/
def Obligations.DurationReadAndWrite : Prop :=
  encode .durRd = 0x0018 ∧ encode .durWr = 0x0019 ∧ ∀ s : State, s.Inv → s.valid = true →
    exec .durRd s = .next (readOut s 2 2) ∧ exec .durWr s = .next (writeOut s 2 2 s.wdata s.headerLen)

/-- 43_dispatch_addresses R149, R148: ADDR_RD returns the six bytes of a slot; an absent slot raises its error. -/
def Obligations.AddrRdReturnsTheSlot : Prop :=
  SelWords 0x20 [.addrRd .a1, .addrRd .a2, .addrRd .a3, .addrRd .a4] ∧
  ∀ (s : State) (a : Slot), s.Inv → s.valid = true →
    exec (.addrRd a) s = .next (match fieldPlace s (slotField a) with
      | .ok o => readOut s o 6
      | .error e => s.fail e)

/-- 43_dispatch_addresses R150, R148: ADDR_WR writes the six bytes of a slot; HLEN stays FrameSize(), which the write does not
change; on an error no byte is written. -/
def Obligations.AddrWrWritesTheSlot : Prop :=
  SelWords 0x21 [.addrWr .a1, .addrWr .a2, .addrWr .a3, .addrWr .a4] ∧
  ∀ (s : State) (a : Slot), s.Inv → s.valid = true →
    exec (.addrWr a) s = .next (match fieldPlace s (slotField a) with
      | .ok o => writeOut s o 6 s.wdata s.headerLen
      | .error e => s.fail e)

/-- 43_dispatch_addresses R152, R151: ROLE_RD returns the address that plays a role under the live flags; a role with no slot
raises FIELD_ABSENT. -/
def Obligations.RoleRdReturnsTheAddressOfTheRole : Prop :=
  SelWords 0x22 [.roleRd .da, .roleRd .sa, .roleRd .bssid, .roleRd .ra, .roleRd .ta] ∧
  ∀ (s : State) (r : Role), s.Inv → s.valid = true →
    exec (.roleRd r) s = .next (match rolePlace s r with
      | some o => readOut s o 6
      | none => s.fail .fieldAbsent)

/-- 43_dispatch_addresses R153, R151: ROLE_WR writes the address that plays a role. -/
def Obligations.RoleWrWritesTheAddressOfTheRole : Prop :=
  SelWords 0x23 [.roleWr .da, .roleWr .sa, .roleWr .bssid, .roleWr .ra, .roleWr .ta] ∧
  ∀ (s : State) (r : Role), s.Inv → s.valid = true →
    exec (.roleWr r) s = .next (match rolePlace s r with
      | some o => writeOut s o 6 s.wdata s.headerLen
      | none => s.fail .fieldAbsent)

/-! ## Field layout (42_field_layout) -/

/-- 42_field_layout R132, R128: COMMIT sets HLEN to the live header length and returns it. -/
def Obligations.CommitRecomputesTheHeaderLength : Prop :=
  encode .commit = 0x0002 ∧ ∀ s : State, s.Inv → s.valid = true →
    exec .commit s = .next ((s.setHlen (BitVec.ofNat 8 s.headerLen)).complete (BitVec.ofNat 48 s.headerLen))

/-- 42_field_layout R130: FSIZE_RD returns the live header length, the one of the table of R134. -/
def Obligations.FsizeRdReturnsTheLiveLength : Prop :=
  encode .fsizeRd = 0x0006 ∧ ∀ s : State, s.Inv → s.valid = true →
    exec .fsizeRd s = .next (s.complete (BitVec.ofNat 48 s.headerLen))

/-- 42_field_layout R131: HLEN_RD returns the committed header length. -/
def Obligations.HlenRdReturnsTheCommittedLength : Prop :=
  encode .hlenRd = 0x0007 ∧ ∀ s : State, s.valid = true → exec .hlenRd s = .next (s.complete (s.hlen.setWidth 48))

/-- 42_field_layout R133, R127: OFFSET_RD returns the offset of a field that is present, with no bounds check, and raises the
error of one that is absent. -/
def Obligations.OffsetRdReturnsTheLayout : Prop :=
  IdxWords 0x08 ([.fc, .dur, .a1, .a2, .a3, .a4, .sc, .qos, .bac, .ssc].map (fun f => .offsetRd (.fixed f)) ++ [.offsetRd .bmp]) ∧
  ∀ (s : State) (f : Field), s.Inv → s.valid = true → exec (.offsetRd f) s = .next (offsetOut s f)

/-! ## Frame control (41_frame_control) -/

/-- 41_frame_control R103: FC_RD returns the word in BUF. -/
def Obligations.FcRdReturnsTheWord : Prop :=
  encode .fcRd = 0x0010 ∧ ∀ s : State, s.Inv → s.valid = true →
    exec .fcRd s = .next (s.complete (memRead s.buf s.base.toNat 2))

/-- 41_frame_control R104: FC_WR writes the word, and HLEN follows the new DS flags. -/
def Obligations.FcWrWritesTheWordAndCommits : Prop :=
  encode .fcWr = 0x0011 ∧ ∀ s : State, s.Inv → s.valid = true →
    exec .fcWr s = .next (((s.setBuf (memWrite s.buf s.base.toNat 2 s.wdata)).setHlen
      (BitVec.ofNat 8 (headerLenOf s.kind (s.wdata.getLsbD 8 && s.wdata.getLsbD 9) s.compressed))).complete 0)

/-- 41_frame_control R105: FCF_RD returns a sub-field of Frame Control. -/
def Obligations.FcfRdReturnsTheSubField : Prop :=
  SelWords 0x12 [.fcfRd .ver, .fcfRd .ftype, .fcfRd .subtype] ∧
  ∀ (s : State) (f : FcField), s.Inv → s.valid = true →
    exec (.fcfRd f) s = .next (s.complete (bitsOf s.fcWord (fcBits f).1 (fcBits f).2))

/-- 41_frame_control R106: FCF_WR writes a sub-field and no other bit; HLEN stays FrameSize(), which does not change. -/
def Obligations.FcfWrWritesTheSubFieldOnly : Prop :=
  SelWords 0x13 [.fcfWr .ver, .fcfWr .ftype, .fcfWr .subtype] ∧
  ∀ (s : State) (f : FcField), s.Inv → s.valid = true →
    ∃ w, IsPut w s.fcWord (fcBits f) s.wdata ∧
      exec (.fcfWr f) s = .next (writeOut s 0 2 (w.setWidth 48) s.headerLen) ∧ 2 ≤ s.avail.toNat

/-- 41_frame_control R107, R102: FLAG_RD returns one flag. -/
def Obligations.FlagRdReturnsTheFlag : Prop :=
  SelWords 0x14 [.flagRd .toDs, .flagRd .fromDs, .flagRd .moreFrag, .flagRd .retry,
    .flagRd .pwrMgmt, .flagRd .moreData, .flagRd .protectedFrame, .flagRd .order] ∧
  ∀ (s : State) (f : Flag), s.Inv → s.valid = true →
    exec (.flagRd f) s = .next (s.complete (bitsOf s.fcWord (flagBits f).1 (flagBits f).2))

/-- 41_frame_control R108, R102: FLAG_WR writes one flag and no other bit, and HLEN follows the new DS flags. -/
def Obligations.FlagWrWritesTheFlagAndCommits : Prop :=
  SelWords 0x15 [.flagWr .toDs, .flagWr .fromDs, .flagWr .moreFrag, .flagWr .retry,
    .flagWr .pwrMgmt, .flagWr .moreData, .flagWr .protectedFrame, .flagWr .order] ∧
  ∀ (s : State) (f : Flag), s.Inv → s.valid = true →
    ∃ w, IsPut w s.fcWord (flagBits f) s.wdata ∧
      exec (.flagWr f) s = .next (writeOut s 0 2 (w.setWidth 48) (headerLenOf s.kind (bothFlags w) s.compressed)) ∧
      2 ≤ s.avail.toNat

/-! ## Control words (44_control_subfields) -/

/-- 44_control_subfields R172, R173: Sequence Control is the word at offset 22, absent in BAR and BA. -/
def Obligations.SequenceControlReadAndWrite : Prop :=
  encode .scRd = 0x0028 ∧ encode .scWr = 0x0029 ∧ ∀ s : State, s.Inv → s.valid = true →
    exec .scRd s = .next (if blockAck s then s.fail .fieldAbsent else readOut s 22 2) ∧
    exec .scWr s = .next (if blockAck s then s.fail .fieldAbsent else writeOut s 22 2 s.wdata s.headerLen)

/-- 44_control_subfields R174, R175, R171: FRAG and SEQ of Sequence Control. -/
def Obligations.SequenceControlSubFields : Prop :=
  SelWords 0x2A [.scfRd .frag, .scfRd .seq] ∧ SelWords 0x2B [.scfWr .frag, .scfWr .seq] ∧
  ∀ (s : State) (f : SeqField), s.Inv → s.valid = true →
    exec (.scfRd f) s = .next (if blockAck s then s.fail .fieldAbsent else subReadOut s 22 (seqBits f)) ∧
    ∃ w, IsPut w (s.wordAt 22) (seqBits f) s.wdata ∧
      exec (.scfWr f) s = .next (if blockAck s then s.fail .fieldAbsent
        else writeOut s 22 2 (w.setWidth 48) s.headerLen)

/-- 44_control_subfields R177, R178: QoS Control is the word at 24, or at 30 under four addresses, and absent in a kind that is
not QoS. -/
def Obligations.QosControlReadAndWrite : Prop :=
  encode .qosRd = 0x002C ∧ encode .qosWr = 0x002D ∧ ∀ s : State, s.Inv → s.valid = true →
    exec .qosRd s = .next (if s.kind = .qosData ∨ s.kind = .qosNull
      then readOut s (if s.fourAddress then 30 else 24) 2 else s.fail .fieldAbsent) ∧
    exec .qosWr s = .next (if s.kind = .qosData ∨ s.kind = .qosNull
      then writeOut s (if s.fourAddress then 30 else 24) 2 s.wdata s.headerLen else s.fail .fieldAbsent)

/-- 44_control_subfields R179, R180, R176: the sub-fields of QoS Control. -/
def Obligations.QosControlSubFields : Prop :=
  SelWords 0x2E [.qsfRd .tid, .qsfRd .eosp, .qsfRd .ackPolicy, .qsfRd .amsdu, .qsfRd .txop] ∧
  SelWords 0x2F [.qsfWr .tid, .qsfWr .eosp, .qsfWr .ackPolicy, .qsfWr .amsdu, .qsfWr .txop] ∧
  ∀ (s : State) (f : QosField), s.Inv → s.valid = true →
    exec (.qsfRd f) s = .next (if s.kind = .qosData ∨ s.kind = .qosNull
      then subReadOut s (if s.fourAddress then 30 else 24) (qosBits f) else s.fail .fieldAbsent) ∧
    ∃ w, IsPut w (s.wordAt (if s.fourAddress then 30 else 24)) (qosBits f) s.wdata ∧
      exec (.qsfWr f) s = .next (if s.kind = .qosData ∨ s.kind = .qosNull
        then writeOut s (if s.fourAddress then 30 else 24) 2 (w.setWidth 48) s.headerLen else s.fail .fieldAbsent)

/-- 44_control_subfields R182: BAC_RD returns the word at offset 16 of a BAR or BA frame. -/
def Obligations.BacRdReturnsTheWord : Prop :=
  encode .bacRd = 0x0030 ∧ ∀ s : State, s.Inv → s.valid = true →
    exec .bacRd s = .next (if blockAck s then readOut s 16 2 else s.fail .fieldAbsent)

/-- 44_control_subfields R183: BAC_WR writes that word; for BA, HLEN becomes 28 if bit 2 of the value is 1 and 84 if it is 0;
for BAR it stays 20. -/
def Obligations.BacWrWritesTheWordAndCommits : Prop :=
  encode .bacWr = 0x0031 ∧ ∀ s : State, s.Inv → s.valid = true →
    exec .bacWr s = .next (if blockAck s
      then writeOut s 16 2 s.wdata (if s.kind = .bar then 20 else if s.wdata.getLsbD 2 then 28 else 84)
      else s.fail .fieldAbsent)

/-- 44_control_subfields R184, R181: the sub-fields of BA/BAR Control. -/
def Obligations.BacfRdReturnsTheSubField : Prop :=
  SelWords 0x32 [.bacfRd .policy, .bacfRd .multiTid, .bacfRd .compr, .bacfRd .tid] ∧
  ∀ (s : State) (f : BacField), s.Inv → s.valid = true →
    exec (.bacfRd f) s = .next (if blockAck s then subReadOut s 16 (bacBits f) else s.fail .fieldAbsent)

/-- 44_control_subfields R185, R181: BACF_WR writes a sub-field and no other bit; for BA, HLEN follows bit 2 of the word. -/
def Obligations.BacfWrWritesTheSubFieldAndCommits : Prop :=
  SelWords 0x33 [.bacfWr .policy, .bacfWr .multiTid, .bacfWr .compr, .bacfWr .tid] ∧
  ∀ (s : State) (f : BacField), s.Inv → s.valid = true →
    ∃ w, IsPut w (s.wordAt 16) (bacBits f) s.wdata ∧
      exec (.bacfWr f) s = .next (if blockAck s
        then writeOut s 16 2 (w.setWidth 48) (if s.kind = .bar then 20 else if w.getLsbD 2 then 28 else 84)
        else s.fail .fieldAbsent)

/-- 44_control_subfields R187, R188: Starting Sequence Control is the word at offset 18 of a BAR or BA frame. -/
def Obligations.StartingSequenceReadAndWrite : Prop :=
  encode .sscRd = 0x0034 ∧ encode .sscWr = 0x0035 ∧ ∀ s : State, s.Inv → s.valid = true →
    exec .sscRd s = .next (if blockAck s then readOut s 18 2 else s.fail .fieldAbsent) ∧
    exec .sscWr s = .next (if blockAck s then writeOut s 18 2 s.wdata s.headerLen else s.fail .fieldAbsent)

/-- 44_control_subfields R189, R190, R186: FRAG and SEQ of Starting Sequence Control. -/
def Obligations.StartingSequenceSubFields : Prop :=
  SelWords 0x36 [.sscfRd .frag, .sscfRd .seq] ∧ SelWords 0x37 [.sscfWr .frag, .sscfWr .seq] ∧
  ∀ (s : State) (f : SeqField), s.Inv → s.valid = true →
    exec (.sscfRd f) s = .next (if blockAck s then subReadOut s 18 (seqBits f) else s.fail .fieldAbsent) ∧
    ∃ w, IsPut w (s.wordAt 18) (seqBits f) s.wdata ∧
      exec (.sscfWr f) s = .next (if blockAck s then writeOut s 18 2 (w.setWidth 48) s.headerLen
        else s.fail .fieldAbsent)

/-! ## Bitmap (45_block_ack_bitmap) -/

/-- 45_block_ack_bitmap R201: BMP_LEN_RD returns 8 or 64 by the live compressed-bitmap bit, for BA only. -/
def Obligations.BmpLenRdReturnsEightOrSixtyFour : Prop :=
  encode .bmpLenRd = 0x0038 ∧ ∀ s : State, s.Inv → s.valid = true →
    exec .bmpLenRd s = .next (if s.kind = .ba then s.complete (if s.compressed then 8 else 64) else s.fail .fieldAbsent)

/-- 45_block_ack_bitmap R202: BMP_RD returns byte `i` of the bitmap; the kind, then the index, then the window is checked. -/
def Obligations.BmpRdReturnsTheByte : Prop :=
  IdxWords 0x39 ((List.range 64).map .bmpRd) ∧
  ∀ (s : State) (i : Nat), s.Inv → s.valid = true →
    exec (.bmpRd i) s = .next (match bitmapError s i with
      | some e => s.fail e
      | none => s.complete ((Memory.byte s.buf (s.base.toNat + 20 + i)).setWidth 48))

/-- 45_block_ack_bitmap R203: BMP_WR writes byte `i` of the bitmap; the layout does not change. -/
def Obligations.BmpWrWritesTheByte : Prop :=
  IdxWords 0x3A ((List.range 64).map .bmpWr) ∧
  ∀ (s : State) (i : Nat), s.Inv → s.valid = true →
    exec (.bmpWr i) s = .next (match bitmapError s i with
      | some e => s.fail e
      | none => ((s.setBuf (Memory.set s.buf (s.base.toNat + 20 + i) (s.wdata.setWidth 8))).setHlen
          (BitVec.ofNat 8 s.headerLen)).complete 0)
end

