-- ==== Sys2Proof/Laws/State.lean ====
section
/-! SUPPORT. What each named update of State does to each field, so that no later proof unfolds a record update. -/
namespace Sys2Proof.Machine

@[simp] theorem State.complete_valid (s : State) (v : Data) : (s.complete v).valid = s.valid := rfl
@[simp] theorem State.complete_kind (s : State) (v : Data) : (s.complete v).kind = s.kind := rfl
@[simp] theorem State.complete_hlen (s : State) (v : Data) : (s.complete v).hlen = s.hlen := rfl
@[simp] theorem State.complete_base (s : State) (v : Data) : (s.complete v).base = s.base := rfl
@[simp] theorem State.complete_avail (s : State) (v : Data) : (s.complete v).avail = s.avail := rfl
@[simp] theorem State.complete_lastErr (s : State) (v : Data) : (s.complete v).lastErr = .ok := rfl
@[simp] theorem State.complete_sticky (s : State) (v : Data) : (s.complete v).sticky = s.sticky := rfl
@[simp] theorem State.complete_buf (s : State) (v : Data) : (s.complete v).buf = s.buf := rfl
@[simp] theorem State.complete_bufSize (s : State) (v : Data) : (s.complete v).bufSize = s.bufSize := rfl
@[simp] theorem State.complete_others (s : State) (v : Data) : (s.complete v).others = s.others := rfl
@[simp] theorem State.complete_wdata (s : State) (v : Data) : (s.complete v).wdata = s.wdata := rfl
@[simp] theorem State.complete_rsp (s : State) (v : Data) : (s.complete v).rsp = some { err := .ok, data := v } := rfl
@[simp] theorem State.complete_host (s : State) (v : Data) : (s.complete v).host = s.host := rfl
@[simp] theorem State.complete_draws (s : State) (v : Data) : (s.complete v).draws = s.draws := rfl

@[simp] theorem State.fail_valid (s : State) (e : ErrCode) : (s.fail e).valid = s.valid := rfl
@[simp] theorem State.fail_kind (s : State) (e : ErrCode) : (s.fail e).kind = s.kind := rfl
@[simp] theorem State.fail_hlen (s : State) (e : ErrCode) : (s.fail e).hlen = s.hlen := rfl
@[simp] theorem State.fail_base (s : State) (e : ErrCode) : (s.fail e).base = s.base := rfl
@[simp] theorem State.fail_avail (s : State) (e : ErrCode) : (s.fail e).avail = s.avail := rfl
@[simp] theorem State.fail_lastErr (s : State) (e : ErrCode) : (s.fail e).lastErr = e := rfl
@[simp] theorem State.fail_sticky (s : State) (e : ErrCode) : (s.fail e).sticky = s.sticky ||| ErrCode.stickyBit e := rfl
@[simp] theorem State.fail_buf (s : State) (e : ErrCode) : (s.fail e).buf = s.buf := rfl
@[simp] theorem State.fail_bufSize (s : State) (e : ErrCode) : (s.fail e).bufSize = s.bufSize := rfl
@[simp] theorem State.fail_others (s : State) (e : ErrCode) : (s.fail e).others = s.others := rfl
@[simp] theorem State.fail_wdata (s : State) (e : ErrCode) : (s.fail e).wdata = s.wdata := rfl
@[simp] theorem State.fail_rsp (s : State) (e : ErrCode) : (s.fail e).rsp = some { err := e, data := 0 } := rfl
@[simp] theorem State.fail_host (s : State) (e : ErrCode) : (s.fail e).host = s.host := rfl
@[simp] theorem State.fail_draws (s : State) (e : ErrCode) : (s.fail e).draws = s.draws := rfl

@[simp] theorem State.setHlen_valid (s : State) (n : BitVec 8) : (s.setHlen n).valid = s.valid := rfl
@[simp] theorem State.setHlen_kind (s : State) (n : BitVec 8) : (s.setHlen n).kind = s.kind := rfl
@[simp] theorem State.setHlen_hlen (s : State) (n : BitVec 8) : (s.setHlen n).hlen = n := rfl
@[simp] theorem State.setHlen_base (s : State) (n : BitVec 8) : (s.setHlen n).base = s.base := rfl
@[simp] theorem State.setHlen_avail (s : State) (n : BitVec 8) : (s.setHlen n).avail = s.avail := rfl
@[simp] theorem State.setHlen_lastErr (s : State) (n : BitVec 8) : (s.setHlen n).lastErr = s.lastErr := rfl
@[simp] theorem State.setHlen_sticky (s : State) (n : BitVec 8) : (s.setHlen n).sticky = s.sticky := rfl
@[simp] theorem State.setHlen_buf (s : State) (n : BitVec 8) : (s.setHlen n).buf = s.buf := rfl
@[simp] theorem State.setHlen_bufSize (s : State) (n : BitVec 8) : (s.setHlen n).bufSize = s.bufSize := rfl
@[simp] theorem State.setHlen_others (s : State) (n : BitVec 8) : (s.setHlen n).others = s.others := rfl
@[simp] theorem State.setHlen_wdata (s : State) (n : BitVec 8) : (s.setHlen n).wdata = s.wdata := rfl
@[simp] theorem State.setHlen_rsp (s : State) (n : BitVec 8) : (s.setHlen n).rsp = s.rsp := rfl
@[simp] theorem State.setHlen_host (s : State) (n : BitVec 8) : (s.setHlen n).host = s.host := rfl
@[simp] theorem State.setHlen_draws (s : State) (n : BitVec 8) : (s.setHlen n).draws = s.draws := rfl

@[simp] theorem State.setBuf_valid (s : State) (m : Memory) : (s.setBuf m).valid = s.valid := rfl
@[simp] theorem State.setBuf_kind (s : State) (m : Memory) : (s.setBuf m).kind = s.kind := rfl
@[simp] theorem State.setBuf_hlen (s : State) (m : Memory) : (s.setBuf m).hlen = s.hlen := rfl
@[simp] theorem State.setBuf_base (s : State) (m : Memory) : (s.setBuf m).base = s.base := rfl
@[simp] theorem State.setBuf_avail (s : State) (m : Memory) : (s.setBuf m).avail = s.avail := rfl
@[simp] theorem State.setBuf_lastErr (s : State) (m : Memory) : (s.setBuf m).lastErr = s.lastErr := rfl
@[simp] theorem State.setBuf_sticky (s : State) (m : Memory) : (s.setBuf m).sticky = s.sticky := rfl
@[simp] theorem State.setBuf_buf (s : State) (m : Memory) : (s.setBuf m).buf = m := rfl
@[simp] theorem State.setBuf_bufSize (s : State) (m : Memory) : (s.setBuf m).bufSize = s.bufSize := rfl
@[simp] theorem State.setBuf_others (s : State) (m : Memory) : (s.setBuf m).others = s.others := rfl
@[simp] theorem State.setBuf_wdata (s : State) (m : Memory) : (s.setBuf m).wdata = s.wdata := rfl
@[simp] theorem State.setBuf_rsp (s : State) (m : Memory) : (s.setBuf m).rsp = s.rsp := rfl
@[simp] theorem State.setBuf_host (s : State) (m : Memory) : (s.setBuf m).host = s.host := rfl
@[simp] theorem State.setBuf_draws (s : State) (m : Memory) : (s.setBuf m).draws = s.draws := rfl

@[simp] theorem State.setWdata_valid (s : State) (d : Data) : (s.setWdata d).valid = s.valid := rfl
@[simp] theorem State.setWdata_kind (s : State) (d : Data) : (s.setWdata d).kind = s.kind := rfl
@[simp] theorem State.setWdata_hlen (s : State) (d : Data) : (s.setWdata d).hlen = s.hlen := rfl
@[simp] theorem State.setWdata_base (s : State) (d : Data) : (s.setWdata d).base = s.base := rfl
@[simp] theorem State.setWdata_avail (s : State) (d : Data) : (s.setWdata d).avail = s.avail := rfl
@[simp] theorem State.setWdata_lastErr (s : State) (d : Data) : (s.setWdata d).lastErr = s.lastErr := rfl
@[simp] theorem State.setWdata_sticky (s : State) (d : Data) : (s.setWdata d).sticky = s.sticky := rfl
@[simp] theorem State.setWdata_buf (s : State) (d : Data) : (s.setWdata d).buf = s.buf := rfl
@[simp] theorem State.setWdata_bufSize (s : State) (d : Data) : (s.setWdata d).bufSize = s.bufSize := rfl
@[simp] theorem State.setWdata_others (s : State) (d : Data) : (s.setWdata d).others = s.others := rfl
@[simp] theorem State.setWdata_wdata (s : State) (d : Data) : (s.setWdata d).wdata = d := rfl
@[simp] theorem State.setWdata_rsp (s : State) (d : Data) : (s.setWdata d).rsp = s.rsp := rfl
@[simp] theorem State.setWdata_host (s : State) (d : Data) : (s.setWdata d).host = s.host := rfl
@[simp] theorem State.setWdata_draws (s : State) (d : Data) : (s.setWdata d).draws = s.draws := rfl

@[simp] theorem State.setHost_valid (s : State) (h : List HostMove) : (s.setHost h).valid = s.valid := rfl
@[simp] theorem State.setHost_kind (s : State) (h : List HostMove) : (s.setHost h).kind = s.kind := rfl
@[simp] theorem State.setHost_hlen (s : State) (h : List HostMove) : (s.setHost h).hlen = s.hlen := rfl
@[simp] theorem State.setHost_base (s : State) (h : List HostMove) : (s.setHost h).base = s.base := rfl
@[simp] theorem State.setHost_avail (s : State) (h : List HostMove) : (s.setHost h).avail = s.avail := rfl
@[simp] theorem State.setHost_lastErr (s : State) (h : List HostMove) : (s.setHost h).lastErr = s.lastErr := rfl
@[simp] theorem State.setHost_sticky (s : State) (h : List HostMove) : (s.setHost h).sticky = s.sticky := rfl
@[simp] theorem State.setHost_buf (s : State) (h : List HostMove) : (s.setHost h).buf = s.buf := rfl
@[simp] theorem State.setHost_bufSize (s : State) (h : List HostMove) : (s.setHost h).bufSize = s.bufSize := rfl
@[simp] theorem State.setHost_others (s : State) (h : List HostMove) : (s.setHost h).others = s.others := rfl
@[simp] theorem State.setHost_wdata (s : State) (h : List HostMove) : (s.setHost h).wdata = s.wdata := rfl
@[simp] theorem State.setHost_rsp (s : State) (h : List HostMove) : (s.setHost h).rsp = s.rsp := rfl
@[simp] theorem State.setHost_host (s : State) (h : List HostMove) : (s.setHost h).host = h := rfl
@[simp] theorem State.setHost_draws (s : State) (h : List HostMove) : (s.setHost h).draws = s.draws := rfl

@[simp] theorem State.setWindow_valid (s : State) (b a : Addr) (k : Kind) : (s.setWindow b a k).valid = true := rfl
@[simp] theorem State.setWindow_kind (s : State) (b a : Addr) (k : Kind) : (s.setWindow b a k).kind = k := rfl
@[simp] theorem State.setWindow_hlen (s : State) (b a : Addr) (k : Kind) : (s.setWindow b a k).hlen = s.hlen := rfl
@[simp] theorem State.setWindow_base (s : State) (b a : Addr) (k : Kind) : (s.setWindow b a k).base = b := rfl
@[simp] theorem State.setWindow_avail (s : State) (b a : Addr) (k : Kind) : (s.setWindow b a k).avail = a := rfl
@[simp] theorem State.setWindow_lastErr (s : State) (b a : Addr) (k : Kind) : (s.setWindow b a k).lastErr = s.lastErr := rfl
@[simp] theorem State.setWindow_sticky (s : State) (b a : Addr) (k : Kind) : (s.setWindow b a k).sticky = s.sticky := rfl
@[simp] theorem State.setWindow_buf (s : State) (b a : Addr) (k : Kind) : (s.setWindow b a k).buf = s.buf := rfl
@[simp] theorem State.setWindow_bufSize (s : State) (b a : Addr) (k : Kind) : (s.setWindow b a k).bufSize = s.bufSize := rfl
@[simp] theorem State.setWindow_others (s : State) (b a : Addr) (k : Kind) : (s.setWindow b a k).others = s.others := rfl
@[simp] theorem State.setWindow_wdata (s : State) (b a : Addr) (k : Kind) : (s.setWindow b a k).wdata = s.wdata := rfl
@[simp] theorem State.setWindow_rsp (s : State) (b a : Addr) (k : Kind) : (s.setWindow b a k).rsp = s.rsp := rfl
@[simp] theorem State.setWindow_host (s : State) (b a : Addr) (k : Kind) : (s.setWindow b a k).host = s.host := rfl
@[simp] theorem State.setWindow_draws (s : State) (b a : Addr) (k : Kind) : (s.setWindow b a k).draws = s.draws := rfl

@[simp] theorem State.invalidate_valid (s : State) : (s.invalidate).valid = false := rfl
@[simp] theorem State.invalidate_kind (s : State) : (s.invalidate).kind = .none := rfl
@[simp] theorem State.invalidate_hlen (s : State) : (s.invalidate).hlen = 0 := rfl
@[simp] theorem State.invalidate_base (s : State) : (s.invalidate).base = 0 := rfl
@[simp] theorem State.invalidate_avail (s : State) : (s.invalidate).avail = 0 := rfl
@[simp] theorem State.invalidate_lastErr (s : State) : (s.invalidate).lastErr = s.lastErr := rfl
@[simp] theorem State.invalidate_sticky (s : State) : (s.invalidate).sticky = s.sticky := rfl
@[simp] theorem State.invalidate_buf (s : State) : (s.invalidate).buf = s.buf := rfl
@[simp] theorem State.invalidate_bufSize (s : State) : (s.invalidate).bufSize = s.bufSize := rfl
@[simp] theorem State.invalidate_others (s : State) : (s.invalidate).others = s.others := rfl
@[simp] theorem State.invalidate_wdata (s : State) : (s.invalidate).wdata = s.wdata := rfl
@[simp] theorem State.invalidate_rsp (s : State) : (s.invalidate).rsp = s.rsp := rfl
@[simp] theorem State.invalidate_host (s : State) : (s.invalidate).host = s.host := rfl
@[simp] theorem State.invalidate_draws (s : State) : (s.invalidate).draws = s.draws := rfl

@[simp] theorem State.idle_valid (s : State) : (s.idle).valid = s.valid := rfl
@[simp] theorem State.idle_kind (s : State) : (s.idle).kind = s.kind := rfl
@[simp] theorem State.idle_hlen (s : State) : (s.idle).hlen = s.hlen := rfl
@[simp] theorem State.idle_base (s : State) : (s.idle).base = s.base := rfl
@[simp] theorem State.idle_avail (s : State) : (s.idle).avail = s.avail := rfl
@[simp] theorem State.idle_lastErr (s : State) : (s.idle).lastErr = s.lastErr := rfl
@[simp] theorem State.idle_sticky (s : State) : (s.idle).sticky = s.sticky := rfl
@[simp] theorem State.idle_buf (s : State) : (s.idle).buf = s.buf := rfl
@[simp] theorem State.idle_bufSize (s : State) : (s.idle).bufSize = s.bufSize := rfl
@[simp] theorem State.idle_others (s : State) : (s.idle).others = s.others := rfl
@[simp] theorem State.idle_wdata (s : State) : (s.idle).wdata = s.wdata := rfl
@[simp] theorem State.idle_rsp (s : State) : (s.idle).rsp = none := rfl
@[simp] theorem State.idle_host (s : State) : (s.idle).host = s.host := rfl
@[simp] theorem State.idle_draws (s : State) : (s.idle).draws = s.draws := rfl

@[simp] theorem State.resetRegs_valid (s : State) : (s.resetRegs).valid = false := rfl
@[simp] theorem State.resetRegs_kind (s : State) : (s.resetRegs).kind = .none := rfl
@[simp] theorem State.resetRegs_hlen (s : State) : (s.resetRegs).hlen = 0 := rfl
@[simp] theorem State.resetRegs_base (s : State) : (s.resetRegs).base = 0 := rfl
@[simp] theorem State.resetRegs_avail (s : State) : (s.resetRegs).avail = 0 := rfl
@[simp] theorem State.resetRegs_lastErr (s : State) : (s.resetRegs).lastErr = .ok := rfl
@[simp] theorem State.resetRegs_sticky (s : State) : (s.resetRegs).sticky = 0 := rfl
@[simp] theorem State.resetRegs_buf (s : State) : (s.resetRegs).buf = s.buf := rfl
@[simp] theorem State.resetRegs_bufSize (s : State) : (s.resetRegs).bufSize = s.bufSize := rfl
@[simp] theorem State.resetRegs_others (s : State) : (s.resetRegs).others = s.others := rfl
@[simp] theorem State.resetRegs_wdata (s : State) : (s.resetRegs).wdata = s.wdata := rfl
@[simp] theorem State.resetRegs_rsp (s : State) : (s.resetRegs).rsp = none := rfl
@[simp] theorem State.resetRegs_host (s : State) : (s.resetRegs).host = s.host := rfl
@[simp] theorem State.resetRegs_draws (s : State) : (s.resetRegs).draws = s.draws := rfl

@[simp] theorem State.resetWith_valid (b n : Nat) : (State.resetWith b n).valid = false := rfl
@[simp] theorem State.resetWith_kind (b n : Nat) : (State.resetWith b n).kind = .none := rfl
@[simp] theorem State.resetWith_hlen (b n : Nat) : (State.resetWith b n).hlen = 0 := rfl
@[simp] theorem State.resetWith_base (b n : Nat) : (State.resetWith b n).base = 0 := rfl
@[simp] theorem State.resetWith_avail (b n : Nat) : (State.resetWith b n).avail = 0 := rfl
@[simp] theorem State.resetWith_lastErr (b n : Nat) : (State.resetWith b n).lastErr = .ok := rfl
@[simp] theorem State.resetWith_sticky (b n : Nat) : (State.resetWith b n).sticky = 0 := rfl
@[simp] theorem State.resetWith_buf (b n : Nat) : (State.resetWith b n).buf = [] := rfl
@[simp] theorem State.resetWith_bufSize (b n : Nat) : (State.resetWith b n).bufSize = b := rfl
@[simp] theorem State.resetWith_others (b n : Nat) : (State.resetWith b n).others = List.replicate n Regs.reset := rfl
@[simp] theorem State.resetWith_wdata (b n : Nat) : (State.resetWith b n).wdata = 0 := rfl
@[simp] theorem State.resetWith_rsp (b n : Nat) : (State.resetWith b n).rsp = none := rfl
@[simp] theorem State.resetWith_host (b n : Nat) : (State.resetWith b n).host = [] := rfl
@[simp] theorem State.resetWith_draws (b n : Nat) : (State.resetWith b n).draws = 0 := rfl

end Sys2Proof.Machine
end

