-- ==== Sys2Proof/Laws/Memory.lean ====
section
/-! SUPPORT. BUF as a memory: a byte read after a write, the canonical form, and MemRead and MemWrite byte by byte. -/
namespace Sys2Proof.Machine

theorem Memory.byte_cons (a : Nat) (b : Byte) (m : Memory) (x : Nat) (h : Memory.byte m a = Config.unlistedByte) :
    Memory.byte (Memory.cons a b m) x = if x = a then b else Memory.byte m x := by
  unfold Memory.cons
  by_cases hx : x = a
  · subst hx
    by_cases hb : b = Config.unlistedByte <;> simp [hb, h, Memory.byte]
  · have hx' : ¬ a = x := fun e => hx e.symm
    by_cases hb : b = Config.unlistedByte <;> simp [hb, hx, hx', Memory.byte]

theorem Memory.wfFrom_mono {lo lo' : Nat} (m : Memory) (hl : lo' ≤ lo) (h : Memory.wfFrom lo m = true) :
    Memory.wfFrom lo' m = true := by
  cases m with
  | nil => rfl
  | cons c m =>
    obtain ⟨x, c⟩ := c
    simp only [Memory.wfFrom, Bool.and_eq_true, decide_eq_true_eq] at h ⊢
    exact ⟨⟨le_trans hl h.1.1, h.1.2⟩, h.2⟩

/-- Below the first listed address every byte is unlisted. -/
theorem Memory.byte_below {lo : Nat} (m : Memory) (h : Memory.wfFrom lo m = true) (a : Nat) (ha : a < lo) :
    Memory.byte m a = Config.unlistedByte := by
  induction m generalizing lo with
  | nil => rfl
  | cons c m ih =>
    obtain ⟨x, c⟩ := c
    simp only [Memory.wfFrom, Bool.and_eq_true, decide_eq_true_eq] at h
    have hx : x ≠ a := by omega
    simp only [Memory.byte, hx, if_false]
    exact ih h.2 (by omega)

theorem Memory.byte_set_from {lo : Nat} (m : Memory) (h : Memory.wfFrom lo m = true) (a : Nat) (b : Byte) (x : Nat) :
    Memory.byte (Memory.set m a b) x = if x = a then b else Memory.byte m x := by
  induction m generalizing lo with
  | nil => exact Memory.byte_cons a b [] x rfl
  | cons c m ih =>
    obtain ⟨y, c⟩ := c
    simp only [Memory.wfFrom, Bool.and_eq_true, decide_eq_true_eq] at h
    by_cases h1 : a < y
    · rw [Memory.set, if_pos h1]
      refine Memory.byte_cons a b _ x ?_
      have hy : y ≠ a := by omega
      simp only [Memory.byte, hy, if_false]
      exact Memory.byte_below m h.2 a (by omega)
    · rw [Memory.set, if_neg h1]
      by_cases h2 : a = y
      · subst h2
        rw [if_pos rfl, Memory.byte_cons _ _ _ _ (Memory.byte_below m h.2 _ (by omega))]
        by_cases hx : x = a
        · simp [hx]
        · have hx' : ¬ a = x := fun e => hx e.symm
          simp [hx, hx', Memory.byte]
      · rw [if_neg h2, Memory.byte, ih h.2, Memory.byte]
        by_cases hy : y = x
        · have : ¬ x = a := by omega
          simp [hy, this]
        · simp [hy]

/-- A byte read after a write: the written byte at its address, every other byte as before. -/
theorem Memory.byte_set (m : Memory) (h : Memory.wf m = true) (a : Nat) (b : Byte) (x : Nat) :
    Memory.byte (Memory.set m a b) x = if x = a then b else Memory.byte m x :=
  Memory.byte_set_from m h a b x

theorem Memory.cons_wfFrom {lo a : Nat} (b : Byte) (m : Memory) (hl : lo ≤ a) (h : Memory.wfFrom (a + 1) m = true) :
    Memory.wfFrom lo (Memory.cons a b m) = true := by
  unfold Memory.cons
  split_ifs with hb
  · exact Memory.wfFrom_mono m (by omega) h
  · simp [Memory.wfFrom, hl, hb, h]

theorem Memory.set_wfFrom {lo a : Nat} (m : Memory) (b : Byte) (hl : lo ≤ a) (h : Memory.wfFrom lo m = true) :
    Memory.wfFrom lo (Memory.set m a b) = true := by
  induction m generalizing lo with
  | nil => exact Memory.cons_wfFrom b [] hl rfl
  | cons c m ih =>
    obtain ⟨y, c⟩ := c
    have h0 := h
    simp only [Memory.wfFrom, Bool.and_eq_true, decide_eq_true_eq] at h
    unfold Memory.set
    split_ifs with h1 h2
    · refine Memory.cons_wfFrom b _ hl ?_
      simp only [Memory.wfFrom, Bool.and_eq_true, decide_eq_true_eq]
      exact ⟨⟨h1, h.1.2⟩, h.2⟩
    · subst h2
      exact Memory.cons_wfFrom b _ hl h.2
    · simp only [Memory.wfFrom, Bool.and_eq_true, decide_eq_true_eq]
      exact ⟨h.1, ih (by omega) h.2⟩

/-- A write keeps the canonical form. -/
theorem Memory.set_wf (m : Memory) (a : Nat) (b : Byte) (h : Memory.wf m = true) : Memory.wf (Memory.set m a b) = true :=
  Memory.set_wfFrom m b (Nat.zero_le a) h

/-- The entries after a write: those before, and one at the address written. -/
theorem Memory.mem_set (m : Memory) (a : Nat) (b : Byte) (c : Host.Cell) (h : c ∈ Memory.set m a b) : c ∈ m ∨ c.1 = a := by
  have hc : ∀ m' : Memory, c ∈ Memory.cons a b m' → c ∈ m' ∨ c.1 = a := by
    intro m' h'
    unfold Memory.cons at h'
    split_ifs at h'
    · exact .inl h'
    · rcases List.mem_cons.mp h' with rfl | h'
      · exact .inr rfl
      · exact .inl h'
  induction m with
  | nil => exact hc [] h
  | cons d m ih =>
    obtain ⟨y, d⟩ := d
    unfold Memory.set at h
    split_ifs at h
    · exact hc _ h
    · rcases hc _ h with h | h
      · exact .inl (List.mem_cons_of_mem _ h)
      · exact .inr h
    · rcases List.mem_cons.mp h with rfl | h
      · exact .inl List.mem_cons_self
      · rcases ih h with h | h
        · exact .inl (List.mem_cons_of_mem _ h)
        · exact .inr h

theorem memWrite_wf (m : Memory) (a n : Nat) (v : Data) (h : Memory.wf m = true) : Memory.wf (memWrite m a n v) = true := by
  induction n with
  | zero => exact h
  | succ n ih => exact Memory.set_wf _ _ _ ih

theorem memWrite_mem (m : Memory) (a n : Nat) (v : Data) (c : Host.Cell) (h : c ∈ memWrite m a n v) :
    c ∈ m ∨ (a ≤ c.1 ∧ c.1 < a + n) := by
  induction n with
  | zero => exact .inl h
  | succ n ih =>
    rcases Memory.mem_set _ _ _ _ h with h | h
    · rcases ih h with h | h
      · exact .inl h
      · exact .inr (by omega)
    · exact .inr (by omega)

/-- MemWrite leaves every byte outside its n bytes as it was. -/
theorem memWrite_byte_outside (m : Memory) (hm : Memory.wf m = true) (a n : Nat) (v : Data) (x : Nat)
    (hx : x < a ∨ a + n ≤ x) : Memory.byte (memWrite m a n v) x = Memory.byte m x := by
  induction n with
  | zero => rfl
  | succ n ih =>
    rw [memWrite, Memory.byte_set _ (memWrite_wf m a n v hm), if_neg (by omega)]
    exact ih (by omega)

/-- MemWrite stores byte k of the value at address a+k. -/
theorem memWrite_byte_inside (m : Memory) (hm : Memory.wf m = true) (a n : Nat) (v : Data) (k : Nat) (hk : k < n) :
    Memory.byte (memWrite m a n v) (a + k) = v.extractLsb' (8 * k) 8 := by
  induction n with
  | zero => omega
  | succ n ih =>
    rw [memWrite, Memory.byte_set _ (memWrite_wf m a n v hm)]
    by_cases hkn : k = n
    · simp [hkn]
    · rw [if_neg (by omega)]
      exact ih (by omega)

theorem byteSum_congr (m m' : Memory) (a n : Nat) (h : ∀ k < n, Memory.byte m (a + k) = Memory.byte m' (a + k)) :
    byteSum m a n = byteSum m' a n := by
  induction n with
  | zero => rfl
  | succ n ih => rw [byteSum, byteSum, ih (fun k hk => h k (by omega)), h n (by omega)]

/-- MemRead depends on its n bytes alone. -/
theorem memRead_congr (m m' : Memory) (a n : Nat) (h : ∀ k < n, Memory.byte m (a + k) = Memory.byte m' (a + k)) :
    memRead m a n = memRead m' a n := by
  rw [memRead, memRead, byteSum_congr m m' a n h]

theorem byteSum_lt (m : Memory) (a n : Nat) : byteSum m a n < 2 ^ (8 * n) := by
  induction n with
  | zero => simp [byteSum]
  | succ n ih =>
    have hb := (Memory.byte m (a + n)).isLt
    have h2 : 2 ^ (8 * (n + 1)) = 2 ^ (8 * n) * 256 := by rw [Nat.mul_add, pow_add]; rfl
    rw [byteSum, h2]
    nlinarith [Nat.two_pow_pos (8 * n)]

theorem byteSum_memWrite (m : Memory) (hm : Memory.wf m = true) (a n : Nat) (v : Data) :
    byteSum (memWrite m a n v) a n = v.toNat % 2 ^ (8 * n) := by
  have key : ∀ j ≤ n, byteSum (memWrite m a n v) a j = v.toNat % 2 ^ (8 * j) := by
    intro j hj
    induction j with
    | zero => simp [byteSum, Nat.mod_one]
    | succ j ih =>
      rw [byteSum, ih (by omega), memWrite_byte_inside m hm a n v j (by omega), BitVec.extractLsb'_toNat,
        Nat.shiftRight_eq_div_pow, show 8 * (j + 1) = 8 * j + 8 by omega, pow_add, Nat.mod_mul]
      ring
  exact key n le_rfl

/-- MemRead after MemWrite of the same n bytes gives the value's low n bytes. -/
theorem memRead_memWrite (m : Memory) (hm : Memory.wf m = true) (a n : Nat) (v : Data) :
    (memRead (memWrite m a n v) a n).toNat = v.toNat % 2 ^ (8 * n) % 2 ^ 48 := by
  rw [memRead, BitVec.toNat_ofNat, byteSum_memWrite m hm]

/-- MemRead of bytes that a write does not touch. -/
theorem memRead_memWrite_disjoint (m : Memory) (hm : Memory.wf m = true) (a n : Nat) (v : Data) (b k : Nat)
    (h : b + k ≤ a ∨ a + n ≤ b) : memRead (memWrite m a n v) b k = memRead m b k :=
  memRead_congr _ _ _ _ fun j hj => memWrite_byte_outside m hm a n v (b + j) (by omega)

/-- A torn write keeps the canonical form. -/
theorem tearInto_wf (draw : Nat → Bool) (new : Memory) (k : Nat) (as : List Nat) (m : Memory) (h : Memory.wf m = true) :
    Memory.wf (tearInto draw new k as m) = true := by
  induction as generalizing k m with
  | nil => exact h
  | cons a as ih =>
    rw [tearInto]
    split_ifs
    · exact ih _ _ (Memory.set_wf _ _ _ h)
    · exact ih _ _ h

/-- The memory of the reset state is in canonical form. -/
theorem State.resetWith_buf_wf (b n : Nat) : Memory.wf (State.resetWith b n).buf = true := rfl

end Sys2Proof.Machine
end

