-- ==== Sys2Proof/Laws/Ops.lean ====
section
/-! SUPPORT. What each shared operation of Machine/Ops.lean can answer, said once. -/
namespace Sys2Proof.Machine

@[simp] theorem finish_ok (s t : State) (v : Data) : finish s (.ok (t, v)) = .next (t.complete v) := rfl
@[simp] theorem finish_raised (s : State) (e : ErrCode) : finish s (.error (.raised e)) = .next (s.fail e) := rfl
@[simp] theorem finish_fault (s : State) (f : Fault) : finish s (.error (.fault f)) = .fault f := rfl
@[simp] theorem finishRead_ok (s : State) (v : Data) : finishRead s (.ok v) = .next (s.complete v) := rfl
@[simp] theorem finishRead_raised (s : State) (e : ErrCode) : finishRead s (.error (.raised e)) = .next (s.fail e) := rfl
@[simp] theorem finishRead_fault (s : State) (f : Fault) : finishRead s (.error (.fault f)) = .fault f := rfl
@[simp] theorem finishWrite_ok (s t : State) : finishWrite s (.ok t) = .next (t.complete 0) := rfl
@[simp] theorem finishWrite_raised (s : State) (e : ErrCode) : finishWrite s (.error (.raised e)) = .next (s.fail e) := rfl
@[simp] theorem finishWrite_fault (s : State) (f : Fault) : finishWrite s (.error (.fault f)) = .fault f := rfl

/-- A read guarded by one check. -/
theorem finishRead_ite (s : State) (c : Prop) [Decidable c] (e : ErrCode) (v : Data) :
    finishRead s (if c then .error (.raised e) else .ok v) = .next (if c then s.fail e else s.complete v) := by
  split_ifs <;> rfl

/-- A write guarded by one check. -/
theorem finishWrite_ite (s : State) (c : Prop) [Decidable c] (e : ErrCode) (t : State) :
    finishWrite s (if c then .error (.raised e) else .ok t) = .next (if c then s.fail e else t.complete 0) := by
  split_ifs <;> rfl

/-- A command that ends in a next state returned a value, or raised an error. -/
theorem finish_next {s t : State} {r : Except Stop (State × Data)} (h : finish s r = .next t) :
    (∃ u v, r = .ok (u, v) ∧ t = u.complete v) ∨ (∃ e, r = .error (.raised e) ∧ t = s.fail e) := by
  match r, h with
  | .ok (u, v), h => exact .inl ⟨u, v, rfl, by simpa using h.symm⟩
  | .error (.raised e), h => exact .inr ⟨e, rfl, by simpa using h.symm⟩
  | .error (.fault f), h => simp at h

/-- The same for a command that only reads. -/
theorem finishRead_next {s t : State} {r : Except Stop Data} (h : finishRead s r = .next t) :
    (∃ v, r = .ok v ∧ t = s.complete v) ∨ (∃ e, r = .error (.raised e) ∧ t = s.fail e) := by
  match r, h with
  | .ok v, h => exact .inl ⟨v, rfl, by simpa using h.symm⟩
  | .error (.raised e), h => exact .inr ⟨e, rfl, by simpa using h.symm⟩
  | .error (.fault f), h => simp at h

/-- The same for a command that writes. -/
theorem finishWrite_next {s t : State} {r : Except Stop State} (h : finishWrite s r = .next t) :
    (∃ u, r = .ok u ∧ t = u.complete 0) ∨ (∃ e, r = .error (.raised e) ∧ t = s.fail e) := by
  match r, h with
  | .ok v, h => exact .inl ⟨v, rfl, by simpa using h.symm⟩
  | .error (.raised e), h => exact .inr ⟨e, rfl, by simpa using h.symm⟩
  | .error (.fault f), h => simp at h

@[simp] theorem State.framed_valid {α : Type} (s : State) (r : Except Stop α) (h : s.valid = true) : s.framed r = r := by
  simp [State.framed, h]

@[simp] theorem State.framed_invalid {α : Type} (s : State) (r : Except Stop α) (h : s.valid = false) :
    s.framed r = .error (.raised .notDecoded) := by
  simp [State.framed, h]

/-- A command whose frame check passed and which gave a value had a frame. -/
theorem State.framed_ok {α : Type} {s : State} {r : Except Stop α} {x : α} (h : s.framed r = .ok x) :
    s.valid = true ∧ r = .ok x := by
  cases hv : s.valid <;> simp [State.framed, hv] at h
  exact ⟨rfl, h⟩

/-- The three answers of the window check. -/
theorem State.access_cases (s : State) (off n : Nat) :
    (s.access off n = .ok (s.base.toNat + off) ∧ off + n ≤ s.avail.toNat ∧ s.base.toNat + off + n ≤ s.bufSize) ∨
    (s.access off n = .error (.raised .outOfRange) ∧ s.avail.toNat < off + n) ∨
    (∃ f, s.access off n = .error (.fault f) ∧ s.bufSize < s.base.toNat + off + n ∧ off + n ≤ s.avail.toNat) := by
  unfold State.access
  split_ifs with h1 h2
  · exact .inr (.inl ⟨rfl, h1⟩)
  · exact .inr (.inr ⟨_, rfl, h2, by omega⟩)
  · exact .inl ⟨rfl, by omega, by omega⟩

theorem State.access_outOfRange (s : State) (off n : Nat) (h : s.avail.toNat < off + n) :
    s.access off n = .error (.raised .outOfRange) := by
  simp [State.access, h]

theorem State.access_inRange (s : State) (hi : s.Inv) (hv : s.valid = true) (off n : Nat) (h : off + n ≤ s.avail.toNat) :
    s.access off n = .ok (s.base.toNat + off) := by
  have := (hi.regs.attached hv).2.2
  rw [State.access, if_neg (by omega), if_neg (by omega)]

/-- Under the invariant the window check never leaves BUF. -/
theorem State.access_eq (s : State) (hi : s.Inv) (hv : s.valid = true) (off n : Nat) :
    s.access off n =
      if s.avail.toNat < off + n then .error (.raised .outOfRange) else .ok (s.base.toNat + off) := by
  split_ifs with h
  · exact s.access_outOfRange off n h
  · exact s.access_inRange hi hv off n (by omega)

end Sys2Proof.Machine
end

