-- ==== Sys2Proof/Laws/Operands.lean ====
section
/-! SUPPORT. What the operand forms give in a state with a frame attached that meets the invariant: the live words, the
layout, the header length, and the field accessors. -/
namespace Sys2Proof.Machine

/-- A write inside the window keeps the invariant. -/
theorem State.Inv.setBuf_memWrite {s : State} (hi : s.Inv) (hv : s.valid = true) (off n : Nat) (v : Data)
    (h : off + n ≤ s.avail.toNat) : (s.setBuf (memWrite s.buf (s.base.toNat + off) n v)).Inv where
  size := hi.size
  regs := hi.regs
  others := hi.others
  canonical := memWrite_wf _ _ _ _ hi.canonical
  inBuf c hc := by
    have := (hi.regs.attached hv).2.2
    rcases memWrite_mem _ _ _ _ _ hc with hc | hc
    · exact hi.inBuf c hc
    · simp only [State.setBuf_bufSize]; omega

theorem State.fc_eq {s : State} (hi : s.Inv) (hv : s.valid = true) : s.fc = .ok s.fcWord := by
  rw [State.fc, s.access_inRange hi hv 0 2 (by have := (hi.regs.attached hv).2.1; omega)]
  rfl

theorem State.bac_eq {s : State} (hi : s.Inv) (hv : s.valid = true) (hk : s.kind = .ba) : s.bac = .ok s.bacWord := by
  rw [State.bac, s.access_inRange hi hv 16 2 (hi.regs.baWindow hv hk)]
  rfl

theorem State.w4_eq {s : State} (hi : s.Inv) (hv : s.valid = true) : s.w4 = .ok s.fourAddress := by
  have hd : s.kind.isData = decide (dataKind s.kind) := by cases s.kind <;> decide
  unfold State.w4 State.fourAddress
  rw [hd]
  cases decide (dataKind s.kind)
  · simp [pure, Except.pure]
  · simp [State.fc_eq hi hv, bind, Except.bind, pure, Except.pure, bothDs, flagIn, Flag.bit]

theorem State.bl_eq {s : State} (hi : s.Inv) (hv : s.valid = true) (hk : s.kind = .ba) :
    s.bl = .ok (if s.compressed then 8 else 64) := by
  rw [State.bl, State.bac_eq hi hv hk]
  rfl

theorem State.frameSize_eq {s : State} (hi : s.Inv) (hv : s.valid = true) : s.frameSize = .ok s.headerLen := by
  have hk := (hi.regs.attached hv).1
  have hw := State.w4_eq hi hv
  have hb := State.bl_eq hi hv
  unfold State.frameSize State.headerLen
  unfold State.fourAddress at hw
  generalize s.fcWord.getLsbD 8 = x at hw ⊢
  generalize s.fcWord.getLsbD 9 = y at hw ⊢
  generalize s.compressed = c at hb ⊢
  cases h : s.kind <;> rw [h] at hk hw hb <;> dsimp only
  case none => exact absurd rfl hk
  case mgmt => rfl
  case bar => rfl
  case ba => rw [hb rfl]; cases c <;> rfl
  all_goals rw [hw]; cases x <;> cases y <;> rfl

theorem State.commit_eq {s : State} (hi : s.Inv) (hv : s.valid = true) :
    s.commit = .ok (s.setHlen (BitVec.ofNat 8 s.headerLen)) := by
  rw [State.commit, State.frameSize_eq hi hv]
  rfl

/-- The error of an absent field (42_field_layout R127). -/
def State.absentCode (s : State) (f : Field) : ErrCode :=
  if f = .fixed .a4 ∧ s.kind.isThreeAddress ∧ s.fcWord.getLsbD 8 ∧ s.fcWord.getLsbD 9 then .inconsistentFlags
  else .fieldAbsent

theorem State.absentError_eq {s : State} (hi : s.Inv) (hv : s.valid = true) (f : Field) :
    s.absentError f = .ok (s.absentCode f) := by
  unfold State.absentError State.absentCode
  rw [State.fc_eq hi hv]
  by_cases h : f = .fixed .a4 ∧ s.kind.isThreeAddress = true
  · simp [h, bind, Except.bind, pure, Except.pure, bothDs, flagIn, Flag.bit]
  · rw [if_neg h, if_neg (by tauto)]
    rfl

theorem State.present_some {s : State} (hi : s.Inv) (hv : s.valid = true) {f : Field} {o : Nat}
    (h : layoutOf s.kind s.fourAddress f = some o) : s.present f = .ok o := by
  simp [State.present, State.w4_eq hi hv, bind, Except.bind, pure, Except.pure, h]

theorem State.present_none {s : State} (hi : s.Inv) (hv : s.valid = true) {f : Field}
    (h : layoutOf s.kind s.fourAddress f = none) : s.present f = .error (.raised (s.absentCode f)) := by
  simp [State.present, State.w4_eq hi hv, bind, Except.bind, h, State.absentError_eq hi hv]

theorem State.locate_some {s : State} (hi : s.Inv) (hv : s.valid = true) {f : FixedField} {o : Nat}
    (h : layoutOf s.kind s.fourAddress (.fixed f) = some o) :
    s.locate f = if s.avail.toNat < o + FixedField.width f then .error (.raised .outOfRange)
      else .ok (s.base.toNat + o) := by
  rw [State.locate, State.present_some hi hv h]
  exact s.access_eq hi hv o _

theorem State.locate_none {s : State} (hi : s.Inv) (hv : s.valid = true) {f : FixedField}
    (h : layoutOf s.kind s.fourAddress (.fixed f) = none) :
    s.locate f = .error (.raised (s.absentCode (.fixed f))) := by
  rw [State.locate, State.present_none hi hv h]
  rfl

theorem State.fieldRd_some {s : State} (hi : s.Inv) (hv : s.valid = true) {f : FixedField} {o : Nat}
    (h : layoutOf s.kind s.fourAddress (.fixed f) = some o) :
    s.fieldRd f = if s.avail.toNat < o + FixedField.width f then .error (.raised .outOfRange)
      else .ok (memRead s.buf (s.base.toNat + o) (FixedField.width f)) := by
  rw [State.fieldRd, State.locate_some hi hv h]
  split_ifs <;> rfl

theorem State.fieldRd_none {s : State} (hi : s.Inv) (hv : s.valid = true) {f : FixedField}
    (h : layoutOf s.kind s.fourAddress (.fixed f) = none) :
    s.fieldRd f = .error (.raised (s.absentCode (.fixed f))) := by
  rw [State.fieldRd, State.locate_none hi hv h]
  rfl

/-- The state a field write leaves: the bytes, then the commit. -/
def State.stored (s : State) (off n : Nat) (v : Data) : State :=
  let t := s.setBuf (memWrite s.buf (s.base.toNat + off) n v)
  t.setHlen (BitVec.ofNat 8 t.headerLen)

theorem State.fieldWr_some {s : State} (hi : s.Inv) (hv : s.valid = true) {f : FixedField} {o : Nat}
    (h : layoutOf s.kind s.fourAddress (.fixed f) = some o) (v : Data) :
    s.fieldWr f v = if s.avail.toNat < o + FixedField.width f then .error (.raised .outOfRange)
      else .ok (s.stored o (FixedField.width f) v) := by
  rw [State.fieldWr, State.locate_some hi hv h]
  split_ifs with hr
  · rfl
  · exact State.commit_eq (hi.setBuf_memWrite hv o _ v (by omega)) hv

theorem State.fieldWr_none {s : State} (hi : s.Inv) (hv : s.valid = true) {f : FixedField}
    (h : layoutOf s.kind s.fourAddress (.fixed f) = none) (v : Data) :
    s.fieldWr f v = .error (.raised (s.absentCode (.fixed f))) := by
  rw [State.fieldWr, State.locate_none hi hv h]
  rfl

/-- The field that plays a role, by the role table. -/
theorem State.roleField_eq {s : State} (hi : s.Inv) (hv : s.valid = true) (r : Role) :
    s.roleField r = match roleSlotOf s.kind (s.fcWord.getLsbD 8) (s.fcWord.getLsbD 9) r with
      | some a => .ok (Slot.field a)
      | none => .error (.raised .fieldAbsent) := by
  rw [State.roleField, State.fc_eq hi hv]
  rfl

/-- The address of a bitmap byte of a BA frame: the index, then the bounds. -/
theorem State.locateBitmap_ba {s : State} (hi : s.Inv) (hv : s.valid = true) (hk : s.kind = .ba) (i : Nat) :
    s.locateBitmap i = if (if s.compressed then 8 else 64) ≤ i then .error (.raised .fieldAbsent)
      else if s.avail.toNat < 20 + i + 1 then .error (.raised .outOfRange) else .ok (s.base.toNat + (20 + i)) := by
  have hl : layoutOf s.kind s.fourAddress .bmp = some 20 := by rw [hk]; rfl
  rw [State.locateBitmap, State.present_some hi hv hl, State.bl_eq hi hv hk, ← s.access_eq hi hv]
  rfl

/-- No other kind has a bitmap. -/
theorem State.locateBitmap_absent {s : State} (hi : s.Inv) (hv : s.valid = true) (hk : s.kind ≠ .ba) (i : Nat) :
    s.locateBitmap i = .error (.raised .fieldAbsent) := by
  have hl : layoutOf s.kind s.fourAddress .bmp = none := by
    cases h : s.kind <;> first | rfl | exact absurd h hk
  rw [State.locateBitmap, State.present_none hi hv hl]
  rfl

/-- The bits of the word a sub-field write stores: the sub-field takes the value's low bits, every other bit stays. -/
theorem subPut_getLsbD (v : Word) (b : SubField) (x : Data) (i : Nat) (hi : i < 16) :
    (subPut v b x).getLsbD i =
      if b.lsb ≤ i ∧ i < b.lsb + b.width then x.getLsbD (i - b.lsb) else v.getLsbD i := by
  have hm : ∀ k, (BitVec.ofNat 16 (2 ^ b.width - 1)).getLsbD k = (decide (k < 16) && decide (k < b.width)) := by
    intro k
    rw [BitVec.getLsbD_ofNat, Nat.testBit_two_pow_sub_one]
  simp only [subPut, BitVec.getLsbD_or, BitVec.getLsbD_and, BitVec.getLsbD_not, BitVec.getLsbD_shiftLeft, hm,
    BitVec.getLsbD_setWidth]
  by_cases h1 : b.lsb ≤ i
  · by_cases h2 : i < b.lsb + b.width
    · have h3 : i - b.lsb < b.width := by omega
      have h4 : i - b.lsb < 16 := by omega
      have h5 : ¬ i < b.lsb := by omega
      have h6 : i - b.lsb < 48 := by omega
      simp [hi, h1, h2, h3, h4, h5]
    · have h3 : ¬ i - b.lsb < b.width := by omega
      simp [hi, h1, h2, h3]
  · have h5 : i < b.lsb := by omega
    simp [hi, h1, h5]

/-- A sub-field read gives the value of its bits. -/
theorem subGet_eq (v : Word) (b : SubField) : subGet v b = BitVec.ofNat 48 (v.toNat / 2 ^ b.lsb % 2 ^ b.width) := by
  apply BitVec.eq_of_toNat_eq
  simp only [subGet, BitVec.toNat_setWidth, BitVec.extractLsb'_toNat, BitVec.toNat_ofNat, Nat.shiftRight_eq_div_pow]

theorem State.subRd_some {s : State} (hi : s.Inv) (hv : s.valid = true) {f : FixedField} {o : Nat}
    (h : layoutOf s.kind s.fourAddress (.fixed f) = some o) (hw : FixedField.width f = 2) (b : SubField) :
    s.subRd f b = if s.avail.toNat < o + 2 then .error (.raised .outOfRange)
      else .ok (subGet (s.wordAt o) b) := by
  rw [State.subRd, State.fieldRd_some hi hv h, hw]
  split_ifs <;> rfl

theorem State.subRd_none {s : State} (hi : s.Inv) (hv : s.valid = true) {f : FixedField}
    (h : layoutOf s.kind s.fourAddress (.fixed f) = none) (b : SubField) :
    s.subRd f b = .error (.raised (s.absentCode (.fixed f))) := by
  rw [State.subRd, State.fieldRd_none hi hv h]
  rfl

theorem State.subWr_some {s : State} (hi : s.Inv) (hv : s.valid = true) {f : FixedField} {o : Nat}
    (h : layoutOf s.kind s.fourAddress (.fixed f) = some o) (hw : FixedField.width f = 2) (b : SubField) (x : Data) :
    s.subWr f b x = if s.avail.toNat < o + 2 then .error (.raised .outOfRange)
      else .ok (s.stored o 2 ((subPut (s.wordAt o) b x).setWidth 48)) := by
  rw [State.subWr, State.fieldRd_some hi hv h, hw]
  split_ifs with hr
  · rfl
  · show s.fieldWr f _ = _
    rw [State.fieldWr_some hi hv h, hw, if_neg hr]
    rfl

theorem State.subWr_none {s : State} (hi : s.Inv) (hv : s.valid = true) {f : FixedField}
    (h : layoutOf s.kind s.fourAddress (.fixed f) = none) (b : SubField) (x : Data) :
    s.subWr f b x = .error (.raised (s.absentCode (.fixed f))) := by
  rw [State.subWr, State.fieldRd_none hi hv h]
  rfl

/-! ## What a store does to the live words -/

theorem headerLenOf_compr (k : Kind) (x c c' : Bool) (h : k = .ba → c = c') : headerLenOf k x c = headerLenOf k x c' := by
  cases k <;> cases x <;> cases c <;> cases c' <;> first | rfl | simp at h

/-- A store that leaves the bytes of Frame Control, and of BA Control in a BA frame, leaves the header length. -/
theorem State.headerLen_setBuf (s : State) (m : Memory) (h0 : (s.setBuf m).fcWord = s.fcWord)
    (h1 : s.kind = .ba → (s.setBuf m).bacWord = s.bacWord) : (s.setBuf m).headerLen = s.headerLen := by
  unfold State.headerLen
  rw [h0, State.setBuf_kind]
  exact headerLenOf_compr _ _ _ _ fun hk => by rw [State.compressed, State.compressed, h1 hk]

/-- A store past the first two bytes of the window leaves Frame Control. -/
theorem State.fcWord_store {s : State} (hi : s.Inv) (off n : Nat) (v : Data) (h : 2 ≤ off) :
    (s.setBuf (memWrite s.buf (s.base.toNat + off) n v)).fcWord = s.fcWord := by
  unfold State.fcWord
  rw [State.setBuf_buf, State.setBuf_base, memRead_memWrite_disjoint _ hi.canonical _ _ _ _ _ (by omega)]

/-- A store clear of bytes 16 and 17 of the window leaves BA Control. -/
theorem State.bacWord_store {s : State} (hi : s.Inv) (off n : Nat) (v : Data) (h : off + n ≤ 16 ∨ 18 ≤ off) :
    (s.setBuf (memWrite s.buf (s.base.toNat + off) n v)).bacWord = s.bacWord := by
  unfold State.bacWord
  rw [State.setBuf_buf, State.setBuf_base, memRead_memWrite_disjoint _ hi.canonical _ _ _ _ _ (by omega)]

/-- A store clear of Frame Control, and of BA Control in a BA frame, leaves the header length. -/
theorem State.headerLen_store {s : State} (hi : s.Inv) (off n : Nat) (v : Data) (h : 2 ≤ off)
    (hb : s.kind = .ba → off + n ≤ 16 ∨ 18 ≤ off) :
    (s.setBuf (memWrite s.buf (s.base.toNat + off) n v)).headerLen = s.headerLen :=
  s.headerLen_setBuf _ (State.fcWord_store hi off n v h) fun hk => State.bacWord_store hi off n v (hb hk)

/-- Reading back a 16-bit word just stored. -/
theorem setWidth_memRead_memWrite (m : Memory) (hm : Memory.wf m = true) (a : Nat) (v : Data) :
    (memRead (memWrite m a 2 v) a 2).setWidth 16 = v.setWidth 16 := by
  apply BitVec.eq_of_toNat_eq
  rw [BitVec.toNat_setWidth, BitVec.toNat_setWidth, memRead_memWrite _ hm]
  omega

/-- A store of Frame Control replaces it. -/
theorem State.fcWord_storeFc {s : State} (hi : s.Inv) (v : Data) :
    (s.setBuf (memWrite s.buf (s.base.toNat + 0) 2 v)).fcWord = v.setWidth 16 := by
  unfold State.fcWord
  rw [State.setBuf_buf, State.setBuf_base, Nat.add_zero, setWidth_memRead_memWrite _ hi.canonical]

/-- A store of BA Control replaces it. -/
theorem State.bacWord_storeBac {s : State} (hi : s.Inv) (v : Data) :
    (s.setBuf (memWrite s.buf (s.base.toNat + 16) 2 v)).bacWord = v.setWidth 16 := by
  unfold State.bacWord
  rw [State.setBuf_buf, State.setBuf_base, setWidth_memRead_memWrite _ hi.canonical]

/-- A field write clear of Frame Control, and of BA Control in a BA frame, commits the header length there was. -/
theorem State.stored_eq {s : State} (hi : s.Inv) (off n : Nat) (v : Data) (h : 2 ≤ off)
    (hb : s.kind = .ba → off + n ≤ 16 ∨ 18 ≤ off) :
    s.stored off n v =
      (s.setBuf (memWrite s.buf (s.base.toNat + off) n v)).setHlen (BitVec.ofNat 8 s.headerLen) := by
  unfold State.stored
  simp only [State.headerLen_store hi off n v h hb]

/-- A field write of Frame Control commits the header length of the new flags. -/
theorem State.stored_fc {s : State} (hi : s.Inv) (v : Data) :
    s.stored 0 2 v = (s.setBuf (memWrite s.buf (s.base.toNat + 0) 2 v)).setHlen
      (BitVec.ofNat 8 (headerLenOf s.kind (v.getLsbD 8 && v.getLsbD 9) s.compressed)) := by
  have hc : (s.setBuf (memWrite s.buf (s.base.toNat + 0) 2 v)).compressed = s.compressed := by
    unfold State.compressed
    rw [State.bacWord_store hi _ _ _ (by omega)]
  dsimp only [State.stored]
  congr 2
  unfold State.headerLen
  rw [State.fcWord_storeFc hi, hc]
  simp

/-- A field write of BA Control in a BA frame commits the length the new compressed-bitmap bit gives. -/
theorem State.stored_bac {s : State} (hi : s.Inv) (hk : s.kind = .ba) (v : Data) :
    s.stored 16 2 v = (s.setBuf (memWrite s.buf (s.base.toNat + 16) 2 v)).setHlen
      (BitVec.ofNat 8 (if v.getLsbD 2 then 28 else 84)) := by
  dsimp only [State.stored]
  congr 2
  unfold State.headerLen State.compressed
  rw [State.bacWord_storeBac hi, State.setBuf_kind, hk]
  simp only [BitVec.getLsbD_setWidth]
  cases v.getLsbD 2 <;> rfl

/-- A field write that ends in a next state keeps everything but BUF and HLEN. -/
theorem State.fieldWr_ok {s t : State} {f : FixedField} {v : Data} (h : s.fieldWr f v = .ok t) :
    ∃ a n, s.locate f = .ok a ∧
      t = (s.setBuf (memWrite s.buf a (FixedField.width f) v)).setHlen (BitVec.ofNat 8 n) := by
  rw [State.fieldWr] at h
  cases hl : s.locate f with
  | error e => simp [hl, bind, Except.bind] at h
  | ok a =>
    simp only [hl, bind, Except.bind, State.commit] at h
    split at h
    · simp at h
    · exact ⟨a, _, rfl, by simpa [pure, Except.pure] using h.symm⟩

end Sys2Proof.Machine
end

