-- ==== Sys2Proof/Laws/Exec.lean ====
section
/-! SUPPORT. What a command can do, said once: the shapes of every next state `exec` answers. -/
namespace Sys2Proof.Machine

theorem State.access_ok {s : State} {off n a : Nat} (h : s.access off n = .ok a) :
    a = s.base.toNat + off ∧ off + n ≤ s.avail.toNat ∧ a + n ≤ s.bufSize := by
  rcases s.access_cases off n with ⟨h', h1, h2⟩ | ⟨h', _⟩ | ⟨f, h', _⟩ <;> rw [h'] at h
  · injection h with h
    exact ⟨h.symm, h1, by omega⟩
  · cases h
  · cases h

theorem State.commit_ok {s u : State} (h : s.commit = .ok u) :
    ∃ n, s.frameSize = .ok n ∧ u = s.setHlen (BitVec.ofNat 8 n) := by
  rw [State.commit] at h
  cases hf : s.frameSize with
  | error e => simp [hf, bind, Except.bind] at h
  | ok n => exact ⟨n, rfl, by simpa [hf, bind, Except.bind, pure, Except.pure] using h.symm⟩

theorem State.locate_ok {s : State} {f : FixedField} {a : Nat} (h : s.locate f = .ok a) :
    a + FixedField.width f ≤ s.bufSize := by
  rw [State.locate] at h
  cases hp : s.present (.fixed f) with
  | error e => simp [hp, bind, Except.bind] at h
  | ok o =>
    simp only [hp, bind, Except.bind] at h
    exact (State.access_ok h).2.2

theorem State.locateBitmap_ok {s : State} {i a : Nat} (h : s.locateBitmap i = .ok a) : a + 1 ≤ s.bufSize := by
  rw [State.locateBitmap] at h
  cases hp : s.present .bmp with
  | error e => simp [hp, bind, Except.bind] at h
  | ok o =>
    cases hb : s.bl with
    | error e => simp [hp, hb, bind, Except.bind] at h
    | ok n =>
      simp only [hp, hb, bind, Except.bind] at h
      split_ifs at h
      exact (State.access_ok h).2.2

/-- `u` is `s` after a store of `k` bytes in BUF and a commit; COMMIT itself stores none. -/
def State.StoreOf (s u : State) : Prop :=
  ∃ a k v n, u = (s.setBuf (memWrite s.buf a k v)).setHlen (BitVec.ofNat 8 n) ∧ a + k ≤ s.bufSize ∧
    (s.setBuf (memWrite s.buf a k v)).frameSize = .ok n

theorem State.StoreOf.intro {s u : State} {a k : Nat} {v : Data} (ha : a + k ≤ s.bufSize)
    (h : (s.setBuf (memWrite s.buf a k v)).commit = .ok u) : s.StoreOf u := by
  obtain ⟨n, hf, rfl⟩ := State.commit_ok h
  exact ⟨a, k, v, n, rfl, ha, hf⟩

theorem State.fieldWr_store {s u : State} {f : FixedField} {v : Data} (h : s.fieldWr f v = .ok u) : s.StoreOf u := by
  rw [State.fieldWr] at h
  cases hl : s.locate f with
  | error e => simp [hl, bind, Except.bind] at h
  | ok a =>
    simp only [hl, bind, Except.bind] at h
    exact .intro (State.locate_ok hl) h

theorem State.subWr_store {s u : State} {f : FixedField} {b : SubField} {x : Data} (h : s.subWr f b x = .ok u) :
    s.StoreOf u := by
  rw [State.subWr] at h
  cases hr : s.fieldRd f with
  | error e => simp [hr, bind, Except.bind] at h
  | ok w =>
    simp only [hr, bind, Except.bind] at h
    exact State.fieldWr_store h

/-! ## No operation raises OK -/

/-- The errors an operation can raise are errors: none raises code 0. -/
def RaisesError {α : Type} (r : Except Stop α) : Prop := r ≠ .error (.raised .ok)

theorem RaisesError.ok {α : Type} (x : α) : RaisesError (.ok x : Except Stop α) := by simp [RaisesError]

theorem RaisesError.bind {α β : Type} {r : Except Stop α} {f : α → Except Stop β} (hr : RaisesError r)
    (hf : ∀ x, RaisesError (f x)) : RaisesError (r >>= f) := by
  cases r with
  | error e => exact fun h => hr (by simpa [Bind.bind, Except.bind] using h)
  | ok x => exact hf x

theorem RaisesError.map {α β : Type} {r : Except Stop α} (hr : RaisesError r) (f : α → β) : RaisesError (r.map f) := by
  cases r with
  | error e => exact fun h => hr (by simpa [Except.map] using h)
  | ok x => exact .ok _

theorem State.framed_raises {α : Type} (s : State) {r : Except Stop α} (hr : RaisesError r) : RaisesError (s.framed r) := by
  unfold State.framed
  split_ifs
  · exact hr
  · simp [RaisesError]

theorem State.access_raises (s : State) (off n : Nat) : RaisesError (s.access off n) := by
  unfold State.access
  split_ifs <;> simp [RaisesError]

theorem State.fc_raises (s : State) : RaisesError s.fc := (s.access_raises 0 2).bind fun _ => .ok _

theorem State.bl_raises (s : State) : RaisesError s.bl :=
  ((s.access_raises 16 2).bind fun _ => .ok _ : RaisesError s.bac).bind fun _ => .ok _

theorem State.w4_raises (s : State) : RaisesError s.w4 := by
  unfold State.w4
  split_ifs
  · exact s.fc_raises.bind fun _ => .ok _
  · exact .ok _

theorem State.frameSize_raises (s : State) : RaisesError s.frameSize := by
  unfold State.frameSize
  split
  · simp [RaisesError]
  · exact .ok _
  · exact s.w4_raises.bind fun _ => .ok _
  · exact s.w4_raises.bind fun _ => .ok _
  · exact s.w4_raises.bind fun _ => .ok _
  · exact .ok _
  · exact s.bl_raises.bind fun _ => .ok _

theorem State.commit_raises (s : State) : RaisesError s.commit := s.frameSize_raises.bind fun _ => .ok _

/-- The error of an absent field is one of two. -/
theorem State.absentError_ok {s : State} {f : Field} {e : ErrCode} (h : s.absentError f = .ok e) :
    e = .fieldAbsent ∨ e = .inconsistentFlags := by
  unfold State.absentError at h
  split_ifs at h
  · cases hc : s.fc with
    | error e => simp [hc, Bind.bind, Except.bind] at h
    | ok v =>
      simp only [hc, Bind.bind, Except.bind, pure, Except.pure, Except.ok.injEq] at h
      subst h
      split_ifs <;> simp
  · simp only [pure, Except.pure, Except.ok.injEq] at h
    exact .inl h.symm

theorem State.present_raises (s : State) (f : Field) : RaisesError (s.present f) := by
  refine s.w4_raises.bind fun w => ?_
  split
  · exact .ok _
  · cases he : s.absentError f with
    | error e =>
      have : RaisesError (s.absentError f) := by
        unfold State.absentError
        split_ifs
        · exact s.fc_raises.bind fun _ => .ok _
        · exact .ok _
      rw [he] at this
      exact fun h => this (by simpa [Bind.bind, Except.bind] using h)
    | ok e =>
      rcases State.absentError_ok he with rfl | rfl <;> simp [RaisesError, Bind.bind, Except.bind]

theorem State.locate_raises (s : State) (f : FixedField) : RaisesError (s.locate f) :=
  (s.present_raises _).bind fun _ => s.access_raises _ _

theorem State.locateBitmap_raises (s : State) (i : Nat) : RaisesError (s.locateBitmap i) := by
  refine (s.present_raises _).bind fun _ => s.bl_raises.bind fun _ => ?_
  split_ifs
  · simp [RaisesError]
  · exact s.access_raises _ _

theorem State.roleField_raises (s : State) (r : Role) : RaisesError (s.roleField r) := by
  refine s.fc_raises.bind fun _ => ?_
  split
  · exact .ok _
  · simp [RaisesError]

theorem State.fieldRd_raises (s : State) (f : FixedField) : RaisesError (s.fieldRd f) :=
  (s.locate_raises f).bind fun _ => .ok _

theorem State.fieldWr_raises (s : State) (f : FixedField) (v : Data) : RaisesError (s.fieldWr f v) :=
  (s.locate_raises f).bind fun _ => State.commit_raises _

theorem State.subRd_raises (s : State) (f : FixedField) (b : SubField) : RaisesError (s.subRd f b) :=
  (s.fieldRd_raises f).bind fun _ => .ok _

theorem State.subWr_raises (s : State) (f : FixedField) (b : SubField) (x : Data) : RaisesError (s.subWr f b x) :=
  (s.fieldRd_raises f).bind fun _ => s.fieldWr_raises f _

theorem State.attach_raises (s : State) (b a : Addr) : RaisesError (s.attach b a) := by
  unfold State.attach
  split_ifs
  · simp [RaisesError]
  · dsimp only
    split
    · simp [RaisesError]
    · split_ifs
      · simp [RaisesError]
      · exact State.commit_raises _

/-! ## What a command can do -/

/-- A command that only reads and ends in a next state raised an error, or read a value. -/
def State.ReadOutcomes (s t : State) : Prop := (∃ e, e ≠ .ok ∧ t = s.fail e) ∨ (∃ v, t = s.complete v)

/-- A command that commits and ends in a next state raised an error, or stored and committed. -/
def State.WriteOutcomes (s t : State) : Prop :=
  (∃ e, e ≠ .ok ∧ t = s.fail e) ∨ (∃ u v, s.valid = true ∧ s.StoreOf u ∧ t = u.complete v)

theorem finishRead_outcomes {s t : State} {r : Except Stop Data} (hr : RaisesError r) (h : finishRead s r = .next t) :
    s.ReadOutcomes t := by
  rcases finishRead_next h with ⟨v, _, rfl⟩ | ⟨e, he, rfl⟩
  · exact .inr ⟨v, rfl⟩
  · exact .inl ⟨e, fun h => hr (h ▸ he), rfl⟩

theorem finishWrite_outcomes {s t : State} {r : Except Stop State} (hr : RaisesError r)
    (h : finishWrite s (s.framed r) = .next t) (hs : ∀ u, r = .ok u → s.StoreOf u) : s.WriteOutcomes t := by
  rcases finishWrite_next h with ⟨u, hu, rfl⟩ | ⟨e, he, rfl⟩
  · exact .inr ⟨u, 0, (State.framed_ok hu).1, hs u (State.framed_ok hu).2, rfl⟩
  · exact .inl ⟨e, fun h => s.framed_raises hr (h ▸ he), rfl⟩

theorem execCommit_outcomes {s t : State} (h : execCommit s = .next t) : s.WriteOutcomes t := by
  rcases finish_next h with ⟨u, v, hu, rfl⟩ | ⟨e, he, rfl⟩
  · obtain ⟨hv, hu⟩ := State.framed_ok hu
    cases hc : s.commit with
    | error e => simp [hc, Except.map] at hu
    | ok w =>
      obtain ⟨n, hf, rfl⟩ := State.commit_ok hc
      simp only [hc, Except.map, Except.ok.injEq, Prod.mk.injEq] at hu
      refine .inr ⟨u, v, hv, ⟨0, 0, 0, n, ?_, by omega, hf⟩, rfl⟩
      exact hu.1.symm
  · exact .inl ⟨e, fun h => s.framed_raises (s.commit_raises.map _) (h ▸ he), rfl⟩

theorem execRoleWr_outcomes {r : Role} {s t : State} (h : execRoleWr r s = .next t) : s.WriteOutcomes t := by
  refine finishWrite_outcomes ((s.roleField_raises r).bind fun _ => s.fieldWr_raises _ _) h fun u hu => ?_
  cases hf : s.roleField r with
  | error e => simp [hf, Bind.bind, Except.bind] at hu
  | ok f =>
    simp only [hf, Bind.bind, Except.bind] at hu
    exact State.fieldWr_store hu

theorem execBmpWr_outcomes {i : Nat} {s t : State} (h : execBmpWr i s = .next t) : s.WriteOutcomes t := by
  refine finishWrite_outcomes ((s.locateBitmap_raises i).bind fun _ => State.commit_raises _) h fun u hu => ?_
  cases hl : s.locateBitmap i with
  | error e => simp [hl, Bind.bind, Except.bind] at hu
  | ok a =>
    simp only [hl, Bind.bind, Except.bind] at hu
    exact .intro (State.locateBitmap_ok hl) hu

/-- The commands that end with a commit, DECODE apart. -/
def commits : Instr → Bool
  | .commit | .fcWr | .fcfWr _ | .flagWr _ | .durWr | .addrWr _ | .roleWr _ | .scWr | .scfWr _ | .qosWr | .qsfWr _
  | .bacWr | .bacfWr _ | .sscWr | .sscfWr _ | .bmpWr _ => true
  | .nop | .decode | .statusRd | .winRd _ | .kindRd | .fsizeRd | .hlenRd | .offsetRd _ | .fcRd | .fcfRd _ | .flagRd _
  | .durRd | .addrRd _ | .roleRd _ | .scRd | .scfRd _ | .qosRd | .qsfRd _ | .bacRd | .bacfRd _ | .sscRd | .sscfRd _
  | .bmpLenRd | .bmpRd _ => false

/-- Every next state of a command that ends with a commit, DECODE apart. -/
theorem exec_write_outcomes {i : Instr} {s t : State} (hc : commits i = true) (h : exec i s = .next t) :
    s.WriteOutcomes t := by
  cases i
  case commit => exact execCommit_outcomes h
  case roleWr r => exact execRoleWr_outcomes h
  case bmpWr i => exact execBmpWr_outcomes h
  all_goals
    first
    | exact Bool.noConfusion hc
    | exact finishWrite_outcomes (s.fieldWr_raises _ _) h fun u hu => State.fieldWr_store hu
    | exact finishWrite_outcomes (s.subWr_raises _ _ _) h fun u hu => State.subWr_store hu

/-- Every next state of a command that only reads. -/
theorem exec_read_outcomes {i : Instr} {s t : State} (hc : commits i = false) (hd : i ≠ .decode) (h : exec i s = .next t) :
    s.ReadOutcomes t := by
  cases i
  case decode => exact absurd rfl hd
  case nop => exact finishRead_outcomes (.ok _) (show finishRead s (.ok _) = _ from h)
  case statusRd => exact finishRead_outcomes (.ok _) (show finishRead s (.ok _) = _ from h)
  case winRd r => exact finishRead_outcomes (.ok _) (show finishRead s (.ok _) = _ from h)
  case kindRd => exact finishRead_outcomes (.ok _) (show finishRead s (.ok _) = _ from h)
  case fsizeRd => exact finishRead_outcomes (s.framed_raises (s.frameSize_raises.map _)) h
  case hlenRd => exact finishRead_outcomes (s.framed_raises (.ok _)) h
  case offsetRd f => exact finishRead_outcomes (s.framed_raises ((s.present_raises _).map _)) h
  case roleRd r =>
    exact finishRead_outcomes (s.framed_raises ((s.roleField_raises r).bind fun _ => s.fieldRd_raises _)) h
  case bmpLenRd =>
    exact finishRead_outcomes (s.framed_raises ((s.present_raises _).bind fun _ => s.bl_raises.bind fun _ => .ok _)) h
  case bmpRd i => exact finishRead_outcomes (s.framed_raises ((s.locateBitmap_raises i).bind fun _ => .ok _)) h
  all_goals
    first
    | exact Bool.noConfusion hc
    | exact finishRead_outcomes (s.framed_raises (s.fieldRd_raises _)) h
    | exact finishRead_outcomes (s.framed_raises (s.subRd_raises _ _)) h

/-- Every next state of a command other than DECODE: an error, a value read, or a store and commit. -/
theorem exec_outcomes {i : Instr} {s t : State} (hd : i ≠ .decode) (h : exec i s = .next t) :
    (∃ e, e ≠ .ok ∧ t = s.fail e) ∨ (∃ v, t = s.complete v) ∨
      (∃ u v, s.valid = true ∧ s.StoreOf u ∧ t = u.complete v) := by
  cases hc : commits i
  · exact (exec_read_outcomes hc hd h).imp_right .inl
  · exact (exec_write_outcomes hc h).imp_right .inr

/-- The frame DECODE attaches. -/
theorem State.attach_ok {s u : State} {b a : Addr} (h : s.attach b a = .ok u) :
    ∃ k n, u = (s.setWindow b a k).setHlen (BitVec.ofNat 8 n) ∧ (s.setWindow b a k).frameSize = .ok n ∧
      b.toNat + a.toNat ≤ s.bufSize ∧ 2 ≤ a.toNat ∧ k ≠ .none ∧ (k = .ba → 18 ≤ a.toNat) := by
  have hd : ∀ x y k, discriminate x y = some k → k ≠ .none := by
    intro x y k hk
    unfold discriminate at hk
    split_ifs at hk <;> (injection hk with hk; subst hk; decide)
  unfold State.attach at h
  split_ifs at h with h1
  dsimp only at h
  split at h
  · cases h
  · rename_i k hk
    split_ifs at h with h2
    obtain ⟨n, hf, rfl⟩ := State.commit_ok h
    refine ⟨k, n, rfl, hf, by omega, by omega, hd _ _ _ hk, fun hb => ?_⟩
    by_contra hc
    exact h2 ⟨hb, by omega⟩

/-- Every next state of DECODE. -/
theorem execDecode_outcomes {s t : State} (h : execDecode s = .next t) :
    (∃ e, e ≠ .ok ∧ t = s.invalidate.fail e) ∨
    (∃ u v, s.attach (s.wdata.extractLsb' 0 24) (s.wdata.extractLsb' 24 24) = .ok u ∧ t = u.complete v) := by
  rcases finish_next h with ⟨u, v, hu, rfl⟩ | ⟨e, he, rfl⟩
  · cases ha : s.attach (s.wdata.extractLsb' 0 24) (s.wdata.extractLsb' 24 24) with
    | error e => simp [ha, Except.map] at hu
    | ok w =>
      simp only [ha, Except.map, Except.ok.injEq, Prod.mk.injEq] at hu
      exact .inr ⟨w, v, rfl, by rw [hu.1]⟩
  · exact .inl ⟨e, fun h => (s.attach_raises _ _).map _ (h ▸ he), rfl⟩

end Sys2Proof.Machine
end

