-- ==== Sys2Proof/Laws/Invariant.lean ====
section
/-! SUPPORT. Each named operation keeps the invariant of Safety.lean, and what a torn write leaves in BUF. -/
namespace Sys2Proof.Machine

/-- The invariant speaks of the registers, BUF, BUF_SIZE and the other instances alone. -/
theorem State.Inv.of_eq {s t : State} (hi : s.Inv) (hr : t.toRegs.Ok t.bufSize) (h1 : t.buf = s.buf)
    (h2 : t.bufSize = s.bufSize) (h3 : t.others = s.others) : t.Inv where
  size := h2 ▸ hi.size
  regs := hr
  others := by rw [h2, h3]; exact hi.others
  canonical := by rw [h1]; exact hi.canonical
  inBuf := by rw [h1, h2]; exact hi.inBuf

theorem Regs.reset_ok (n : Nat) : Regs.reset.Ok n where
  detached _ := ⟨rfl, rfl, rfl, rfl⟩
  attached h := by simp [Regs.reset] at h
  baWindow h := by simp [Regs.reset] at h
  sticky7 := by decide

/-- STICKY after an error: bit c-1 for code c is set, no bit is cleared. -/
theorem stickyBit_getLsbD (x : BitVec 7) (e : ErrCode) (b : Nat) :
    (x ||| ErrCode.stickyBit e).getLsbD b = (x.getLsbD b || decide ((ErrCode.code e).toNat = b + 1)) := by
  rw [BitVec.getLsbD_or]
  congr 1
  by_cases hb : b < 7
  · interval_cases b <;> cases e <;> decide
  · rw [BitVec.getLsbD_of_ge _ _ (by omega)]
    have := (ErrCode.code e).isLt
    simp only [Bool.false_eq, decide_eq_false_iff_not]
    omega

theorem State.Inv.fail {s : State} (hi : s.Inv) (e : ErrCode) : (s.fail e).Inv :=
  hi.of_eq ⟨hi.regs.detached, hi.regs.attached, hi.regs.baWindow, by
    rw [State.fail_sticky, stickyBit_getLsbD, hi.regs.sticky7]
    cases e <;> decide⟩ rfl rfl rfl

theorem State.Inv.complete {s : State} (hi : s.Inv) (v : Data) : (s.complete v).Inv :=
  hi.of_eq ⟨hi.regs.detached, hi.regs.attached, hi.regs.baWindow, hi.regs.sticky7⟩ rfl rfl rfl

theorem State.Inv.setHlen {s : State} (hi : s.Inv) (hv : s.valid = true) (n : BitVec 8) : (s.setHlen n).Inv :=
  hi.of_eq ⟨fun h => absurd (hv.symm.trans h) (by decide), hi.regs.attached, hi.regs.baWindow, hi.regs.sticky7⟩
    rfl rfl rfl

theorem State.Inv.invalidate {s : State} (hi : s.Inv) : s.invalidate.Inv :=
  hi.of_eq ⟨fun _ => ⟨rfl, rfl, rfl, rfl⟩, fun h => by simp at h, fun h => by simp at h, hi.regs.sticky7⟩ rfl rfl rfl

theorem State.Inv.setWdata {s : State} (hi : s.Inv) (d : Data) : (s.setWdata d).Inv := hi.of_eq hi.regs rfl rfl rfl

theorem State.Inv.setHost {s : State} (hi : s.Inv) (h : List HostMove) : (s.setHost h).Inv :=
  hi.of_eq hi.regs rfl rfl rfl

theorem State.Inv.idle {s : State} (hi : s.Inv) : s.idle.Inv := hi.of_eq hi.regs rfl rfl rfl

theorem State.Inv.resetRegs {s : State} (hi : s.Inv) : s.resetRegs.Inv := hi.of_eq (Regs.reset_ok _) rfl rfl rfl

theorem State.Inv.setWindow {s : State} (hi : s.Inv) {b a : Addr} {k : Kind} (h1 : b.toNat + a.toNat ≤ s.bufSize)
    (h2 : 2 ≤ a.toNat) (h3 : k ≠ .none) (h4 : k = .ba → 18 ≤ a.toNat) : (s.setWindow b a k).Inv :=
  hi.of_eq ⟨fun h => by simp at h, fun _ => ⟨h3, h2, h1⟩, fun _ => h4, hi.regs.sticky7⟩ rfl rfl rfl

theorem State.Inv.setBuf {s : State} (hi : s.Inv) (a k : Nat) (v : Data) (h : a + k ≤ s.bufSize) :
    (s.setBuf (memWrite s.buf a k v)).Inv where
  size := hi.size
  regs := hi.regs
  others := hi.others
  canonical := memWrite_wf _ _ _ _ hi.canonical
  inBuf c hc := by
    rcases memWrite_mem _ _ _ _ _ hc with hc | hc
    · exact hi.inBuf c hc
    · simp only [State.setBuf_bufSize]; omega

theorem Memory.set_inBuf {m : Memory} {a n : Nat} {b : Byte} (h : ∀ c ∈ m, c.1 < n) (ha : a < n) :
    ∀ c ∈ Memory.set m a b, c.1 < n := by
  intro c hc
  rcases Memory.mem_set _ _ _ _ hc with hc | hc
  · exact h c hc
  · omega

/-- A byte that does not read as unlisted is listed. -/
theorem Memory.listed {m : Memory} {a : Nat} (h : Memory.byte m a ≠ Config.unlistedByte) : ∃ c ∈ m, c.1 = a := by
  induction m with
  | nil => exact absurd rfl h
  | cons c m ih =>
    obtain ⟨x, c⟩ := c
    by_cases hx : x = a
    · exact ⟨_, List.mem_cons_self, hx⟩
    · simp only [Memory.byte, hx, if_false] at h
      obtain ⟨d, hd, h⟩ := ih h
      exact ⟨d, List.mem_cons_of_mem _ hd, h⟩

/-- The changed addresses are those whose bytes differ. -/
theorem mem_changedAddrs (o n : Memory) (a : Nat) : a ∈ changedAddrs o n ↔ Memory.byte o a ≠ Memory.byte n a := by
  simp only [changedAddrs, List.mem_filter, List.mem_dedup, decide_eq_true_eq]
  refine ⟨fun h => h.2, fun h => ⟨?_, h⟩⟩
  by_cases h1 : Memory.byte o a = Config.unlistedByte
  · obtain ⟨c, hc, rfl⟩ := Memory.listed (m := n) (a := a) fun h' => h (h1.trans h'.symm)
    exact List.mem_map.mpr ⟨c, List.mem_append_right _ hc, rfl⟩
  · obtain ⟨c, hc, rfl⟩ := Memory.listed h1
    exact List.mem_map.mpr ⟨c, List.mem_append_left _ hc, rfl⟩

theorem changedAddrs_nodup (o n : Memory) : (changedAddrs o n).Nodup := List.Nodup.filter _ (List.nodup_dedup _)

theorem tearInto_inBuf (draw : Nat → Bool) (new : Memory) (n : Nat) (as : List Nat) (has : ∀ a ∈ as, a < n) (k : Nat)
    (m : Memory) (h : ∀ c ∈ m, c.1 < n) : ∀ c ∈ tearInto draw new k as m, c.1 < n := by
  induction as generalizing k m with
  | nil => exact h
  | cons a as ih =>
    rw [tearInto]
    refine ih (fun a h => has a (List.mem_cons_of_mem _ h)) _ _ ?_
    split_ifs
    · exact Memory.set_inBuf h (has a List.mem_cons_self)
    · exact h

/-- A byte after a torn write: listed addresses by their own draw, every other address as before. -/
theorem tearInto_byte (draw : Nat → Bool) (new : Memory) (as : List Nat) (hn : as.Nodup) (k : Nat) (m : Memory)
    (hm : Memory.wf m = true) (x : Nat) : Memory.byte (tearInto draw new k as m) x =
      if x ∈ as ∧ draw (k + as.idxOf x) then Memory.byte new x else Memory.byte m x := by
  induction as generalizing k m with
  | nil => simp [tearInto]
  | cons a as ih =>
    have hna : a ∉ as := (List.nodup_cons.mp hn).1
    rw [tearInto, ih (List.nodup_cons.mp hn).2 _ _ (by split_ifs; exacts [Memory.set_wf _ _ _ hm, hm])]
    by_cases hx : x = a
    · subst hx
      simp only [hna, false_and, if_false, List.mem_cons, true_or, true_and, List.idxOf_cons_self, Nat.add_zero]
      split_ifs
      · rw [Memory.byte_set _ hm, if_pos rfl]
      · rfl
    · have hax : ¬ a = x := fun h => hx h.symm
      have hb : Memory.byte (if draw k = true then Memory.set m a (Memory.byte new a) else m) x = Memory.byte m x := by
        split_ifs
        · rw [Memory.byte_set _ hm, if_neg hx]
        · rfl
      rw [hb, List.idxOf_cons_ne _ hax]
      simp only [List.mem_cons, hx, false_or]
      rw [show k + 1 + as.idxOf x = k + (as.idxOf x + 1) by omega]

end Sys2Proof.Machine
end

