-- ==== Sys2Proof/Laws/PerInstr.lean ====
section
/-! SUPPORT. Per instruction: the encoder's word is a legal command word (30_encoding R65). -/
namespace Sys2Proof.Laws.LegalWord

/-- The word of a well-formed instruction is legal: RSV is 0 and SEL and IDX are within its opcode's range. -/
def Statement (i : Instr) : Prop := i.wellFormed = true → Machine.legalWord (encode i) = true

theorem nop : Statement .nop := fun _ => by decide
theorem decode : Statement .decode := fun _ => by decide
theorem commit : Statement .commit := fun _ => by decide
theorem statusRd : Statement .statusRd := fun _ => by decide
theorem winRd (r : WinReg) : Statement (.winRd r) := fun _ => by cases r <;> decide
theorem kindRd : Statement .kindRd := fun _ => by decide
theorem fsizeRd : Statement .fsizeRd := fun _ => by decide
theorem hlenRd : Statement .hlenRd := fun _ => by decide
theorem offsetRd (f : Field) : Statement (.offsetRd f) := fun _ => by
  cases f with
  | fixed f => cases f <;> decide
  | bmp => decide
theorem fcRd : Statement .fcRd := fun _ => by decide
theorem fcWr : Statement .fcWr := fun _ => by decide
theorem fcfRd (f : FcField) : Statement (.fcfRd f) := fun _ => by cases f <;> decide
theorem fcfWr (f : FcField) : Statement (.fcfWr f) := fun _ => by cases f <;> decide
theorem flagRd (f : Flag) : Statement (.flagRd f) := fun _ => by cases f <;> decide
theorem flagWr (f : Flag) : Statement (.flagWr f) := fun _ => by cases f <;> decide
theorem durRd : Statement .durRd := fun _ => by decide
theorem durWr : Statement .durWr := fun _ => by decide
theorem addrRd (a : Slot) : Statement (.addrRd a) := fun _ => by cases a <;> decide
theorem addrWr (a : Slot) : Statement (.addrWr a) := fun _ => by cases a <;> decide
theorem roleRd (r : Role) : Statement (.roleRd r) := fun _ => by cases r <;> decide
theorem roleWr (r : Role) : Statement (.roleWr r) := fun _ => by cases r <;> decide
theorem scRd : Statement .scRd := fun _ => by decide
theorem scWr : Statement .scWr := fun _ => by decide
theorem scfRd (f : SeqField) : Statement (.scfRd f) := fun _ => by cases f <;> decide
theorem scfWr (f : SeqField) : Statement (.scfWr f) := fun _ => by cases f <;> decide
theorem qosRd : Statement .qosRd := fun _ => by decide
theorem qosWr : Statement .qosWr := fun _ => by decide
theorem qsfRd (f : QosField) : Statement (.qsfRd f) := fun _ => by cases f <;> decide
theorem qsfWr (f : QosField) : Statement (.qsfWr f) := fun _ => by cases f <;> decide
theorem bacRd : Statement .bacRd := fun _ => by decide
theorem bacWr : Statement .bacWr := fun _ => by decide
theorem bacfRd (f : BacField) : Statement (.bacfRd f) := fun _ => by cases f <;> decide
theorem bacfWr (f : BacField) : Statement (.bacfWr f) := fun _ => by cases f <;> decide
theorem sscRd : Statement .sscRd := fun _ => by decide
theorem sscWr : Statement .sscWr := fun _ => by decide
theorem sscfRd (f : SeqField) : Statement (.sscfRd f) := fun _ => by cases f <;> decide
theorem sscfWr (f : SeqField) : Statement (.sscfWr f) := fun _ => by cases f <;> decide
theorem bmpLenRd : Statement .bmpLenRd := fun _ => by decide
theorem bmpRd (i : Nat) : Statement (.bmpRd i) := fun h => by
  have hi : i < 64 := of_decide_eq_true h
  interval_cases i <;> decide
theorem bmpWr (i : Nat) : Statement (.bmpWr i) := fun h => by
  have hi : i < 64 := of_decide_eq_true h
  interval_cases i <;> decide

end Sys2Proof.Laws.LegalWord
end

