-- ==== Sys2Proof/Tests/Slice0.lean ====
section
/-! SUPPORT. The model's own tests. Every expected value comes from spec/: the encodings of 30_encoding R61 to R68 and R71, the
examples of the command rules, and the tables of 95_test_vectors, named at each test. -/
namespace Sys2Proof.Tests
open Machine Claims

/-! ## Well-formedness -/

/-- The one check there is: a bitmap index (30_encoding R64). -/
theorem test_wellFormed_bitmap_index :
    (Instr.bmpRd 63).wellFormed = true ∧ (Instr.bmpRd 64).wellFormed = false ∧
    (Instr.bmpWr 63).wellFormed = true ∧ (Instr.bmpWr 64).wellFormed = false := by decide

/-! ## Decoding: one word per constructor, written out from RSV[15] IDX[14:9] SEL[8:6] OPC[5:0] -/

theorem test_decode_status :
    decodeWord 0b0000000000000000 = .ok .nop ∧ decodeWord 0b0000000000000011 = .ok .statusRd ∧
    decodeWord 0b0000000001000100 = .ok (.winRd .avail) := by decide

theorem test_decode_discriminator :
    decodeWord 0b0000000000000001 = .ok .decode ∧ decodeWord 0b0000000000000101 = .ok .kindRd ∧
    decodeWord 0b0000000000011000 = .ok .durRd ∧ decodeWord 0b0000000000011001 = .ok .durWr := by decide

theorem test_decode_layout :
    decodeWord 0b0000000000000010 = .ok .commit ∧ decodeWord 0b0000000000000110 = .ok .fsizeRd ∧
    decodeWord 0b0000000000000111 = .ok .hlenRd ∧ decodeWord 0b0001010000001000 = .ok (.offsetRd .bmp) := by decide

theorem test_decode_frame_control :
    decodeWord 0b0000000000010000 = .ok .fcRd ∧ decodeWord 0b0000000000010001 = .ok .fcWr ∧
    decodeWord 0b0000000010010010 = .ok (.fcfRd .subtype) ∧ decodeWord 0b0000000001010011 = .ok (.fcfWr .ftype) ∧
    decodeWord 0b0000000111010100 = .ok (.flagRd .order) ∧ decodeWord 0b0000000110010101 = .ok (.flagWr .protectedFrame) := by
  decide

theorem test_decode_addresses :
    decodeWord 0b0000000011100000 = .ok (.addrRd .a4) ∧ decodeWord 0b0000000001100001 = .ok (.addrWr .a2) ∧
    decodeWord 0b0000000100100010 = .ok (.roleRd .ta) ∧ decodeWord 0b0000000010100011 = .ok (.roleWr .bssid) := by decide

theorem test_decode_sequence_control :
    decodeWord 0b0000000000101000 = .ok .scRd ∧ decodeWord 0b0000000000101001 = .ok .scWr ∧
    decodeWord 0b0000000001101010 = .ok (.scfRd .seq) ∧ decodeWord 0b0000000001101011 = .ok (.scfWr .seq) := by decide

theorem test_decode_qos_control :
    decodeWord 0b0000000000101100 = .ok .qosRd ∧ decodeWord 0b0000000000101101 = .ok .qosWr ∧
    decodeWord 0b0000000010101110 = .ok (.qsfRd .ackPolicy) ∧ decodeWord 0b0000000100101111 = .ok (.qsfWr .txop) := by decide

theorem test_decode_ba_control :
    decodeWord 0b0000000000110000 = .ok .bacRd ∧ decodeWord 0b0000000000110001 = .ok .bacWr ∧
    decodeWord 0b0000000011110010 = .ok (.bacfRd .tid) ∧ decodeWord 0b0000000010110011 = .ok (.bacfWr .compr) := by decide

theorem test_decode_starting_sequence :
    decodeWord 0b0000000000110100 = .ok .sscRd ∧ decodeWord 0b0000000000110101 = .ok .sscWr ∧
    decodeWord 0b0000000001110110 = .ok (.sscfRd .seq) ∧ decodeWord 0b0000000000110111 = .ok (.sscfWr .frag) := by decide

theorem test_decode_bitmap :
    decodeWord 0b0000000000111000 = .ok .bmpLenRd ∧ decodeWord 0b0111111000111001 = .ok (.bmpRd 63) ∧
    decodeWord 0b0000111000111010 = .ok (.bmpWr 7) := by decide

/-- Illegal words, each by its reason (30_encoding R65, R69): RSV = 1; a reserved opcode; SEL 3 of FCF_RD; a stray SEL and a
stray IDX of NOP; field id 11. -/
theorem test_decode_rejects_by_name :
    decodeWord 0x8000 = .error .reservedBit ∧ decodeWord 0x0009 = .error (.reservedOpcode 9) ∧
    decodeWord 0x00D2 = .error (.selOutOfRange 3) ∧ decodeWord 0x0040 = .error (.straySel 1) ∧
    decodeWord 0x0200 = .error (.strayIdx 1) ∧ decodeWord 0x1608 = .error (.idxOutOfRange 11) := by decide

/-- The table's numbering: one 16-bit word, bit 0 the least significant. -/
theorem test_decodeTableWord :
    decodeTableWord 16 0x0E39 = some (.bmpRd 7) ∧ decodeTableWord 16 0x8000 = none ∧ decodeTableWord 16 0x10000 = none := by
  decide

/-! ## Assembly (30_encoding R71, R72) -/

/-- The examples of R71. -/
theorem test_assemble_examples :
    assemble "FLAG_WR" [.name "TO_DS", .num 1] = some (0x0015, 1) ∧ assemble "ADDR_RD" [.name "A4"] = some (0x00E0, 0) ∧
    assemble "ADDR_RD" [.num 3] = some (0x00E0, 0) ∧ assemble "BMP_RD" [.num 7] = some (0x0E39, 0) ∧
    assemble "OFFSET_RD" [.name "QOS"] = some (0x0E08, 0) ∧
    assemble "DECODE" [.num 0x100, .num 24] = some (0x0001, 0x000018000100) := by decide

/-- `WDS_ON` is `FLAG_WR TO_DS, 1` ; `FLAG_WR FROM_DS, 1`; `REDECODE` ends with `DECODE b, a`. -/
theorem test_pseudo_expansions :
    pseudoMoves .wdsOn = [.command 0x0015 1, .command 0x0055 1] ∧
    pseudoMoves (.redecode 0x100 24) = [.command 0x0004 0, .command 0x0044 0, .command 0x0001 0x000018000100] ∧
    (pseudoMoves (.bmpCopy 8)).length = 9 := by decide

/-! ## The states of the tests: the frames of 95_test_vectors, section 0 -/

/-- Bytes placed in BUF from an address on. -/
def placeBytes : Nat → List Nat → Memory
  | _, [] => []
  | a, b :: bs => Memory.cons a (BitVec.ofNat 8 b) (placeBytes (a + 1) bs)

/-- A frame attached at address 0 in a window of `avail` bytes. -/
def attachedAt (k : Kind) (hlen avail : Nat) (bytes : List Nat) : State :=
  { State.reset with
    valid := true, kind := k, hlen := BitVec.ofNat 8 hlen, avail := BitVec.ofNat 24 avail, buf := placeBytes 0 bytes }

/-- A management or data frame: Duration 0x013A, A1 to A4 filled with 11, 22, 33, 44, SC 0x0010, then QoS Control 0x0027. -/
def dataBytes (fc0 fc1 : Nat) : List Nat :=
  [fc0, fc1, 0x3A, 0x01] ++ List.replicate 6 0x11 ++ List.replicate 6 0x22 ++ List.replicate 6 0x33 ++ [0x10, 0x00] ++
    List.replicate 6 0x44 ++ [0x27, 0x00]

/-- A BAR or BA frame: BA Control as given, Starting Sequence Control 0x0FA0, then bitmap bytes 01 to 08. -/
def baBytes (fc0 bac0 bac1 : Nat) : List Nat :=
  [fc0, 0x00, 0x3A, 0x01] ++ List.replicate 6 0x11 ++ List.replicate 6 0x22 ++ [bac0, bac1, 0xA0, 0x0F] ++
    [1, 2, 3, 4, 5, 6, 7, 8]

/-- A plain data frame, three addresses. -/
def plain (avail : Nat) : State := attachedAt .data 24 avail (dataBytes 0x08 0x00)
/-- A plain data frame with these flags. -/
def flagged (fc1 : Nat) : State := attachedAt .data (if fc1 = 3 then 30 else 24) 32 (dataBytes 0x08 fc1)
/-- A QoS data frame with four addresses. -/
def wds (avail : Nat) : State := attachedAt .qosData 32 avail (dataBytes 0x88 0x03)
/-- A QoS null frame with three addresses: its QoS Control is the first of the 44 bytes. -/
def qosNull (avail : Nat) : State := attachedAt .qosNull 26 avail (dataBytes 0xC8 0x00)
/-- A management frame whose flags ask for four addresses. -/
def mgmt : State := attachedAt .mgmt 24 32 (dataBytes 0x80 0x03)
/-- A block-ack request. -/
def bar (avail : Nat) : State := attachedAt .bar 20 avail (baBytes 0x84 0x04 0x50)
/-- A block-ack with a compressed bitmap. -/
def ba (avail : Nat) : State := attachedAt .ba 28 avail (baBytes 0x94 0x04 0x50)
/-- A block-ack with a full bitmap. -/
def baFull (avail : Nat) : State := attachedAt .ba 84 avail (baBytes 0x94 0x00 0x50)

/-- What a command answers. -/
def answer (r : Result) : Option (ErrCode × Data) :=
  match r with
  | .next t => t.rsp.map fun p => (p.err, p.data)
  | .fault _ => none
  | .refused _ => none

/-- The n bytes at an address after a command, and HLEN. -/
def wrote (r : Result) (a n : Nat) : Option (Data × Nat) :=
  match r with
  | .next t => some (memRead t.buf a n, t.hlen.toNat)
  | .fault _ => none
  | .refused _ => none

/-- VALID, KIND, HLEN, BASE and AVAIL after a command. -/
def window (r : Result) : Option (Bool × Kind × Nat × Nat × Nat) :=
  match r with
  | .next t => some (t.valid, t.kind, t.hlen.toNat, t.base.toNat, t.avail.toNat)
  | .fault _ => none
  | .refused _ => none

/-! ## One step of each command -/

/-- V46 and R210. -/
theorem test_nop : answer (exec .nop State.reset) = some (.ok, 0) := by decide

/-- R211: after a DECODE of a DATA frame and an ADDR_RD A4 that raised FIELD_ABSENT, 0x0845. -/
theorem test_statusRd :
    answer (exec .statusRd ((plain 24).fail .fieldAbsent)) = some (.ok, 0x0845) ∧
    answer (exec .statusRd State.reset) = some (.ok, 0) := by decide

/-- R212: BASE 0x100, AVAIL 24. -/
theorem test_winRd :
    answer (exec (.winRd .base) { plain 24 with base := 0x100 }) = some (.ok, 0x100) ∧
    answer (exec (.winRd .avail) (plain 24)) = some (.ok, 24) := by decide

/-- S1: DECODE 0, 24 answers 2 with HLEN 24. V43b: DECODE 0, 17 of a BA frame raises OUT_OF_RANGE and detaches. -/
theorem test_decode_attaches :
    answer (exec .decode { plain 24 with valid := false, wdata := 0x000018000000 }) = some (.ok, 2) ∧
    window (exec .decode { plain 24 with valid := false, wdata := 0x000018000000 }) = some (true, .data, 24, 0, 24) := by decide
theorem test_decode_detaches :
    answer (exec .decode { ba 28 with wdata := 0x000011000000 }) = some (.outOfRange, 0) ∧
    window (exec .decode { ba 28 with wdata := 0x000011000000 }) = some (false, .none, 0, 0, 0) := by decide

/-- R143: after DECODE of a BA frame, 6. -/
theorem test_kindRd : answer (exec .kindRd (ba 28)) = some (.ok, 6) := by decide

/-- V42c: after the host set the second FC byte to 03, COMMIT gives 30. -/
theorem test_commit :
    answer (exec .commit { flagged 3 with hlen := 24 }) = some (.ok, 30) ∧
    window (exec .commit { flagged 3 with hlen := 24 }) = some (true, .data, 30, 0, 32) := by decide

/-- V42c and R130: FSIZE_RD is live; BA with BAC 0x0004 gives 28. -/
theorem test_fsizeRd :
    answer (exec .fsizeRd { flagged 3 with hlen := 24 }) = some (.ok, 30) ∧
    answer (exec .fsizeRd (ba 28)) = some (.ok, 28) := by decide

/-- V42c: HLEN_RD is the last commit. -/
theorem test_hlenRd : answer (exec .hlenRd { flagged 3 with hlen := 24 }) = some (.ok, 24) := by decide

/-- R133: OFFSET_RD QOS of a 4-address QoS frame is 30. V42b: OFFSET_RD A4 of MGMT with both flags is INCONSISTENT_FLAGS. -/
theorem test_offsetRd :
    answer (exec (.offsetRd (.fixed .qos)) (wds 32)) = some (.ok, 30) ∧
    answer (exec (.offsetRd (.fixed .a4)) mgmt) = some (.inconsistentFlags, 0) := by decide

/-- V41: bytes 08 00 give 0x0008. -/
theorem test_fcRd : answer (exec .fcRd (plain 24)) = some (.ok, 0x0008) := by decide

/-- R104: FC_WR 0x0308 gives bytes 08 03 and HLEN 30. -/
theorem test_fcWr : wrote (exec .fcWr { plain 24 with wdata := 0x0308 }) 0 2 = some (0x0308, 30) := by decide

/-- R105: FC 0x00C8 gives TYPE 2, SUBTYPE 12. -/
theorem test_fcfRd :
    answer (exec (.fcfRd .ftype) (qosNull 32)) = some (.ok, 2) ∧
    answer (exec (.fcfRd .subtype) (qosNull 32)) = some (.ok, 12) := by decide

/-- R106: FCF_WR SUBTYPE, 8 gives FC 0x0088, KIND still DATA. -/
theorem test_fcfWr :
    wrote (exec (.fcfWr .subtype) { plain 24 with wdata := 8 }) 0 2 = some (0x0088, 24) ∧
    window (exec (.fcfWr .subtype) { plain 24 with wdata := 8 }) = some (true, .data, 24, 0, 24) := by decide

/-- R107: FC 0x0308 gives FROM_DS 1, RETRY 0. -/
theorem test_flagRd :
    answer (exec (.flagRd .fromDs) (flagged 3)) = some (.ok, 1) ∧
    answer (exec (.flagRd .retry) (flagged 3)) = some (.ok, 0) := by decide

/-- R108: FC 0x0108, FLAG_WR FROM_DS, 1 gives 0x0308 and HLEN 30; `FLAG_WR TO_DS, 2` writes 0. -/
theorem test_flagWr :
    wrote (exec (.flagWr .fromDs) { flagged 1 with wdata := 1 }) 0 2 = some (0x0308, 30) ∧
    wrote (exec (.flagWr .toDs) { flagged 1 with wdata := 2 }) 0 2 = some (0x0008, 24) := by decide

/-- R146: bytes 3A 01 give 0x013A; OUT_OF_RANGE when AVAIL < 4. -/
theorem test_durRd :
    answer (exec .durRd (plain 4)) = some (.ok, 0x013A) ∧ answer (exec .durRd (plain 3)) = some (.outOfRange, 0) := by decide

/-- V43c: DUR_WR 0xFFFF. -/
theorem test_durWr : wrote (exec .durWr { plain 24 with wdata := 0xFFFF }) 2 2 = some (0xFFFF, 24) := by decide

/-- S4: ADDR_RD 1 inside a window of 20 bytes, ADDR_RD 2 past it. -/
theorem test_addrRd :
    answer (exec (.addrRd .a2) (plain 20)) = some (.ok, 0x222222222222) ∧
    answer (exec (.addrRd .a3) (plain 20)) = some (.outOfRange, 0) := by decide

/-- R150: ADDR_WR 1, 0x0000DEADBEEF writes EF BE AD DE 00 00 at 10..15. -/
theorem test_addrWr :
    wrote (exec (.addrWr .a2) { plain 24 with wdata := 0xDEADBEEF }) 10 2 = some (0xBEEF, 24) ∧
    wrote (exec (.addrWr .a2) { plain 24 with wdata := 0xDEADBEEF }) 10 6 = some (0x0000DEADBEEF, 24) := by decide

/-- R152: ROLE_RD SA of a 4-address frame is slot A4; BSSID has no slot there. -/
theorem test_roleRd :
    answer (exec (.roleRd .sa) (wds 32)) = some (.ok, 0x444444444444) ∧
    answer (exec (.roleRd .bssid) (wds 32)) = some (.fieldAbsent, 0) := by decide

/-- R153: with flags 1,0, ROLE_WR DA writes slot A3 (16..21). -/
theorem test_roleWr : wrote (exec (.roleWr .da) { flagged 1 with wdata := 0xA5 }) 16 6 = some (0xA5, 24) := by decide

/-- R172: bytes 10 00 at 22..23 give 0x0010; FIELD_ABSENT in BA. -/
theorem test_scRd :
    answer (exec .scRd (plain 24)) = some (.ok, 0x0010) ∧ answer (exec .scRd (ba 28)) = some (.fieldAbsent, 0) := by decide

/-- R173: SC_WR 0xFFF5 writes F5 FF. S4: nothing written past the window. -/
theorem test_scWr :
    wrote (exec .scWr { plain 24 with wdata := 0xFFF5 }) 22 2 = some (0xFFF5, 24) ∧
    wrote (exec .scWr { plain 20 with wdata := 0x0020 }) 22 2 = some (0x0010, 24) := by decide

/-- R174: SC 0x0010 gives FRAG 0, SEQ 1. -/
theorem test_scfRd :
    answer (exec (.scfRd .frag) (plain 24)) = some (.ok, 0) ∧ answer (exec (.scfRd .seq) (plain 24)) = some (.ok, 1) := by
  decide

/-- R175: `SCF_WR SEQ, 4096` writes SEQ 0; SEQ 0x123 leaves FRAG. -/
theorem test_scfWr :
    wrote (exec (.scfWr .seq) { plain 24 with wdata := 4096 }) 22 2 = some (0x0000, 24) ∧
    wrote (exec (.scfWr .seq) { plain 24 with wdata := 0x123 }) 22 2 = some (0x1230, 24) := by decide

/-- R177: QoS Control at 30 under four addresses, at 24 under three. -/
theorem test_qosRd :
    answer (exec .qosRd (wds 32)) = some (.ok, 0x0027) ∧ answer (exec .qosRd (qosNull 26)) = some (.ok, 0x4444) := by decide

/-- R178: absent in a plain data frame; else written in place. -/
theorem test_qosWr :
    wrote (exec .qosWr { wds 32 with wdata := 0x0005 }) 30 2 = some (0x0005, 32) ∧
    answer (exec .qosWr (plain 32)) = some (.fieldAbsent, 0) := by decide

/-- R179: QOS 0x0027 gives TID 7, ACK_POLICY 1. -/
theorem test_qsfRd :
    answer (exec (.qsfRd .tid) (wds 32)) = some (.ok, 7) ∧ answer (exec (.qsfRd .ackPolicy) (wds 32)) = some (.ok, 1) := by
  decide

/-- R180: TXOP, 0xAB gives 0xAB27; `QSF_WR TID, 0x1F` writes TID 15. -/
theorem test_qsfWr :
    wrote (exec (.qsfWr .txop) { wds 32 with wdata := 0xAB }) 30 2 = some (0xAB27, 32) ∧
    wrote (exec (.qsfWr .tid) { wds 32 with wdata := 0x1F }) 30 2 = some (0x002F, 32) := by decide

/-- R182: bytes 04 50 give 0x5004; OUT_OF_RANGE in a BAR window of 17 bytes. -/
theorem test_bacRd :
    answer (exec .bacRd (ba 28)) = some (.ok, 0x5004) ∧ answer (exec .bacRd (bar 17)) = some (.outOfRange, 0) := by decide

/-- R183: BAC_WR 0x0000 of a BA frame gives HLEN 84; of a BAR frame 20. -/
theorem test_bacWr :
    wrote (exec .bacWr (ba 28)) 16 2 = some (0, 84) ∧ wrote (exec .bacWr (bar 20)) 16 2 = some (0, 20) := by decide

/-- R184: BAC 0x5004 gives COMPR 1, TID 5. -/
theorem test_bacfRd :
    answer (exec (.bacfRd .compr) (ba 28)) = some (.ok, 1) ∧ answer (exec (.bacfRd .tid) (ba 28)) = some (.ok, 5) := by decide

/-- R185: BACF_WR COMPR, 0 gives BAC 0x5000 and HLEN 84; COMPR, 1 gives 28. -/
theorem test_bacfWr :
    wrote (exec (.bacfWr .compr) (ba 28)) 16 2 = some (0x5000, 84) ∧
    wrote (exec (.bacfWr .compr) { baFull 84 with wdata := 1 }) 16 2 = some (0x5004, 28) := by decide

/-- R187: bytes A0 0F give 0x0FA0. -/
theorem test_sscRd : answer (exec .sscRd (ba 28)) = some (.ok, 0x0FA0) := by decide

/-- R188. -/
theorem test_sscWr : wrote (exec .sscWr { ba 28 with wdata := 0x1234 }) 18 2 = some (0x1234, 28) := by decide

/-- R189: SSC 0x0FA0 gives FRAG 0, SEQ 250. -/
theorem test_sscfRd :
    answer (exec (.sscfRd .frag) (ba 28)) = some (.ok, 0) ∧ answer (exec (.sscfRd .seq) (ba 28)) = some (.ok, 250) := by decide

/-- R190: SSCF_WR SEQ, 1 gives 0x0010. -/
theorem test_sscfWr : wrote (exec (.sscfWr .seq) { ba 28 with wdata := 1 }) 18 2 = some (0x0010, 28) := by decide

/-- R201: 8 or 64. -/
theorem test_bmpLenRd :
    answer (exec .bmpLenRd (ba 28)) = some (.ok, 8) ∧ answer (exec .bmpLenRd (baFull 84)) = some (.ok, 64) := by decide

/-- R202: BMP_RD 7 gives 0x08, BMP_RD 8 raises FIELD_ABSENT. -/
theorem test_bmpRd :
    answer (exec (.bmpRd 7) (ba 28)) = some (.ok, 8) ∧ answer (exec (.bmpRd 8) (ba 84)) = some (.fieldAbsent, 0) := by decide

/-- V45: BMP_WR 0, 0x1FF writes FF. -/
theorem test_bmpWr : wrote (exec (.bmpWr 0) { ba 28 with wdata := 0x1FF }) 20 1 = some (0xFF, 28) := by decide

/-! ## The host's moves -/

/-- V60: `RSV = 1` raises BAD_COMMAND even with no frame. -/
theorem test_illegal_word : answer (runCommand 0x8000 0 State.reset) = some (.badCommand, 0) := by decide

/-- 30_encoding R71 as a step: `FLAG_WR TO_DS, 1` is word 0x0015 with write data 1. -/
theorem test_step_command :
    wrote (step { plain 24 with host := [.command 0x0015 1] }) 0 2 = some (0x0108, 24) := by decide

/-- V42c: the host writes BUF[1] = 03; HLEN stays 24. -/
theorem test_step_hostWrite :
    wrote (step { plain 24 with host := [.writeBuf 1 3] }) 0 2 = some (0x0308, 24) := by decide

/-- V70: reset keeps BUF and clears the registers. -/
theorem test_step_reset :
    window (step { plain 24 with host := [.reset] }) = some (false, .none, 0, 0, 0) ∧
    wrote (step { plain 24 with host := [.reset] }) 0 2 = some (0x0008, 0) := by decide

/-- withFetchWord makes the command the next step. -/
theorem test_withFetchWord : answer (step (State.reset.withFetchWord 16 0x0010)) = some (.notDecoded, 0) := by decide

/-! ## Witnesses: states and operands that meet the hypotheses of the statements, at the boundary of each clause -/

/-- The invariant of a state with no other instance, as a check. -/
def invCheck (s : State) : Bool :=
  decide (Config.minBufSize ≤ s.bufSize) && decide (s.bufSize ≤ Config.maxBufSize) && s.others.isEmpty &&
  (s.valid || (decide (s.kind = .none) && decide (s.hlen = 0) && decide (s.base = 0) && decide (s.avail = 0))) &&
  (!s.valid || (decide (s.kind ≠ .none) && decide (2 ≤ s.avail.toNat) &&
    decide (s.base.toNat + s.avail.toNat ≤ s.bufSize))) &&
  (!s.valid || decide (s.kind ≠ .ba) || decide (18 ≤ s.avail.toNat)) && !s.sticky.getLsbD 6 && Memory.wf s.buf &&
  s.buf.all fun c => decide (c.1 < s.bufSize)

theorem invCheck_sound {s : State} (h : invCheck s = true) : s.Inv := by
  simp only [invCheck, Bool.and_eq_true, Bool.or_eq_true, Bool.not_eq_true', decide_eq_true_eq, List.isEmpty_iff,
    List.all_eq_true] at h
  obtain ⟨⟨⟨⟨⟨⟨⟨⟨h1, h2⟩, h3⟩, h4⟩, h5⟩, h6⟩, h7⟩, h8⟩, h9⟩ := h
  refine ⟨⟨h1, h2⟩, ⟨fun hv => ?_, fun hv => ?_, fun hv hk => ?_, h7⟩, fun r hr => ?_, h8, h9⟩
  · rcases h4 with h | ⟨⟨⟨ha, hb⟩, hc⟩, hd⟩
    · rw [hv] at h; cases h
    · exact ⟨ha, hb, hc, hd⟩
  · rcases h5 with h | ⟨⟨ha, hb⟩, hc⟩
    · rw [hv] at h; cases h
    · exact ⟨ha, hb, hc⟩
  · rcases h6 with (h | h) | h
    · rw [hv] at h; cases h
    · exact absurd hk h
    · exact h
  · rw [h3] at hr; cases hr

/-- A state that meets the hypotheses of the command statements: the invariant, and a frame attached. -/
theorem meets {s : State} (h : (invCheck s && s.valid) = true) : s.Inv ∧ s.valid = true := by
  rw [Bool.and_eq_true] at h
  exact ⟨invCheck_sound h.1, h.2⟩

/-- EncodeThenDecodeIsIdentity: the greatest bitmap index. -/
theorem witness_encode : (Instr.bmpRd 63).wellFormed = true ∧ (Instr.bmpWr 63).wellFormed = true := by decide

/-- DecodedWordReencodes and LegalWordsAreThoseOfTheMap: legal words at the ends of SEL and IDX, and words just past them. -/
theorem witness_words :
    decodeWord 0x7E39 = .ok (.bmpRd 63) ∧ legalWord 0x7E39 = true ∧ legalWord 0x01D5 = true ∧ legalWord 0x1408 = true ∧
    legalWord 0x1608 = false ∧ legalWord 0x00D2 = false := by decide

/-- StepRunsTheDecodedCommand: a legal command as the next move, another move, and none. -/
theorem witness_step :
    { plain 24 with host := [.command 0x0015 1] }.host = .command 0x0015 1 :: [] ∧ decodeWord 0x0015 = .ok (.flagWr .toDs) ∧
    { plain 24 with host := [.writeBuf 255 1] }.host = .writeBuf 255 1 :: [] ∧ (plain 24).host = [] := by decide

/-- IllegalWordRaisesBadCommand: RSV, a reserved opcode, SEL and IDX out of range, stray SEL and stray IDX. -/
theorem witness_illegal :
    legalWord 0x8000 = false ∧ legalWord 0x003B = false ∧ legalWord 0x0084 = false ∧ legalWord 0x1608 = false ∧
    legalWord 0x0040 = false ∧ legalWord 0x0200 = false := by decide

/-- ResetDuringACommandTearsItsBytes: a command that changes a byte. -/
theorem witness_resetDuring :
    (plain 24).Inv ∧ ∃ t, runCommand 0x0011 0x0308 (plain 24) = .next t ∧
      Memory.byte (plain 24).buf 1 ≠ Memory.byte t.buf 1 :=
  ⟨invCheck_sound (by decide), _, rfl, by decide⟩

/-- HlenIsStaleAfterAHostWrite: the last byte of BUF, and the byte of the DS flags; the layout does change. -/
theorem witness_stale :
    ((plain 24).Inv ∧ (plain 24).valid = true) ∧ (1 : Addr).toNat < (plain 24).bufSize ∧
    (255 : Addr).toNat < (plain 24).bufSize ∧ (plain 24).headerLen = 24 ∧ (flagged 3).headerLen = 30 :=
  ⟨meets (by decide), by decide⟩

/-- InstancesKeepTheirOwnRegisters: one other instance. -/
theorem witness_instances : (State.resetWith 256 1).others[0]? = some Regs.reset := by decide

/-- EveryStepKeepsTheInvariant and EveryCommandAnswersOnce: a step from a state that meets the invariant. -/
theorem witness_invariant :
    (ba 28).Inv ∧ State.reset.Inv ∧ ∃ t, step { ba 28 with host := [.command 0x0031 0] } = .next t :=
  ⟨invCheck_sound (by decide), invCheck_sound (by decide), _, rfl⟩

/-- ResetMeetsTheInvariant: the ends of the range of BUF_SIZE. -/
theorem witness_reset : 2 ≤ 2 ∧ 2 ≤ 2 ^ 24 ∧ (2 : Nat) ^ 24 ≤ 2 ^ 24 := by decide

/-- EveryCommandKeepsHlenCurrent: a frame whose HLEN is current, and a command that changes the length. -/
theorem witness_hlenCurrent :
    (ba 28).Inv ∧ (ba 28).HlenCurrent ∧ ∃ t, runCommand 0x0031 0 (ba 28) = .next t ∧ t.valid = true ∧ t.hlen.toNat = 84 :=
  ⟨invCheck_sound (by decide), fun _ => ⟨28, by decide, by decide⟩, _, rfl, by decide⟩

/-- NoFrameRaisesNotDecoded. -/
theorem witness_noFrame : needsFrame .commit = true ∧ needsFrame (.bmpWr 0) = true ∧ State.reset.valid = false := by decide

/-- AnErrorLeavesBufferAndRegisters: a failing write, an illegal word, and a failing DECODE. -/
theorem witness_error :
    (∃ t, runCommand 0x0029 0x0020 (plain 20) = .next t ∧ t.lastErr ≠ .ok) ∧ decodeWord 0x0029 ≠ .ok .decode ∧
    (∃ t, runCommand 0x8000 0 (plain 20) = .next t ∧ t.lastErr ≠ .ok) ∧
    (∃ t, runCommand 0x0001 0x000011000000 (ba 28) = .next t ∧ t.lastErr ≠ .ok) ∧ decodeWord 0x0001 = .ok .decode :=
  ⟨⟨_, rfl, by decide⟩, by decide, ⟨_, rfl, by decide⟩, ⟨_, rfl, by decide⟩, by decide⟩

/-- StatusBookkeeping: a command, and a STICKY bit that reset clears. -/
theorem witness_status :
    (∃ t, runCommand 0x0029 0 (plain 20) = .next t) ∧
    ∃ t, runMove .reset ((plain 20).fail .outOfRange) = .next t ∧
      ((plain 20).fail .outOfRange).sticky.getLsbD 0 = true ∧ t.sticky.getLsbD 0 = false :=
  ⟨⟨_, rfl⟩, _, rfl, by decide⟩

/-- OnlyDecodeChangesTheKind: FCF_WR of SUBTYPE, FC_WR that keeps the DS flags, and a host write of the first byte. -/
theorem witness_kind :
    ((plain 24).Inv ∧ (plain 24).valid = true) ∧ (∃ t, exec (.fcfWr .subtype) (plain 24) = .next t) ∧
    ({ plain 24 with wdata := 0x00C8 }.Inv ∧ { plain 24 with wdata := 0x00C8 }.valid = true) ∧
    (∃ t, exec .fcWr { plain 24 with wdata := 0x00C8 } = .next t) ∧
    (0x00C8 : Data).getLsbD 8 = { plain 24 with wdata := 0x00C8 }.fcWord.getLsbD 8 ∧
    (0x00C8 : Data).getLsbD 9 = { plain 24 with wdata := 0x00C8 }.fcWord.getLsbD 9 ∧
    (∃ t, runMove (.writeBuf 0 0x94) (plain 24) = .next t) ∧ (0 : Addr) = (plain 24).base :=
  ⟨meets (by decide), ⟨_, rfl⟩, meets (by decide), ⟨_, rfl⟩, by decide, by decide, ⟨_, rfl⟩, by decide⟩

/-- ReadsChangeNothingButStatus: a read, DECODE and COMMIT. -/
theorem witness_reads :
    isFieldWrite .scRd = false ∧ isRead .scRd = true ∧ (∃ t, exec .scRd (plain 24) = .next t) ∧
    isFieldWrite .decode = false ∧ (∃ t, exec .decode (plain 24) = .next t) ∧
    isFieldWrite .commit = false ∧ ∃ t, exec .commit (plain 24) = .next t :=
  ⟨by decide, by decide, ⟨_, rfl⟩, by decide, ⟨_, rfl⟩, by decide, _, rfl⟩

/-- WritesTouchOnlyTheirField: a write that finds its place, at the end of the window, and one that finds none. -/
theorem witness_writes :
    (plain 24).Inv ∧ isFieldWrite .scWr = true ∧ (∃ t, exec .scWr (plain 24) = .next t) ∧
    storeSpan .scWr (plain 24) = .ok (22, 2) ∧ storeSpan .scWr (plain 23) = .error (.raised .outOfRange) ∧
    (plain 23).Inv ∧ ∃ t, exec .scWr (plain 23) = .next t :=
  ⟨invCheck_sound (by decide), by decide, ⟨_, rfl⟩, by decide, by decide, invCheck_sound (by decide), _, rfl⟩

/-- MemReadAndMemWriteByByte: the widest read, and a memory in canonical form. -/
theorem witness_memory : 6 ≤ 6 ∧ Memory.wf (plain 24).buf = true := by decide

/-- WrittenFieldReadsBack: A4 of a four-address frame, whose write succeeds. -/
theorem witness_readBack :
    fieldPair (.addrWr .a4) (.addrRd .a4) 48 ∧ { wds 32 with wdata := 0xDEADBEEF }.Inv ∧
    ∃ t, exec (.addrWr .a4) { wds 32 with wdata := 0xDEADBEEF } = .next t ∧ t.lastErr = .ok :=
  ⟨by simp [fieldPair], invCheck_sound (by decide), _, rfl, by decide⟩

/-- LayoutIsAPureFunctionOfTheFlags: two frames alike in KIND, DS flags and, for BA, BAC[2] alone; and BMP_LEN_RD's success. -/
theorem witness_layout :
    ((ba 28).Inv ∧ (ba 28).valid = true) ∧ ((ba 84).Inv ∧ (ba 84).valid = true) ∧ (ba 28).kind = (ba 84).kind ∧
    (ba 28).fcWord.getLsbD 8 = (ba 84).fcWord.getLsbD 8 ∧ (ba 28).fcWord.getLsbD 9 = (ba 84).fcWord.getLsbD 9 ∧
    (ba 28).bacWord.getLsbD 2 = (ba 84).bacWord.getLsbD 2 ∧ ∃ t, exec .bmpLenRd (ba 28) = .next t ∧ t.lastErr = .ok :=
  ⟨meets (by decide), meets (by decide), by decide, by decide, by decide, by decide, _, rfl, by decide⟩

/-- WinRdReturnsTheWindow and KindRdReturnsTheLatchedKind: no frame attached. -/
theorem witness_detached : State.reset.Inv ∧ State.reset.valid = false := ⟨invCheck_sound (by decide), by decide⟩

/-- DecodeAttachesOrDetaches: the invariant before; a window that ends at BUF_SIZE, one that passes it, the two shortest, an
unsupported type, and the two shortest BA windows (V43a, V43b). -/
theorem witness_decode :
    (ba 28).Inv ∧ (decodeOut { ba 28 with wdata := 0x0000020000FE }).valid = true ∧
    (decodeOut { ba 28 with wdata := 0x0000030000FE }).lastErr = .outOfRange ∧
    (decodeOut { plain 24 with wdata := 0x000002000000 }).valid = true ∧
    (decodeOut { plain 24 with wdata := 0x000001000000 }).lastErr = .outOfRange ∧
    (decodeOut { attachedAt .data 24 24 [0xB4, 0x00] with wdata := 0x000018000000 }).lastErr = .unsupportedSubtype ∧
    (decodeOut { ba 28 with wdata := 0x000011000000 }).lastErr = .outOfRange ∧
    (decodeOut { ba 28 with wdata := 0x000012000000 }).kind = .ba :=
  ⟨invCheck_sound (by decide), by decide, by decide, by decide, by decide, by decide, by decide, by decide⟩

/-- DurationReadAndWrite: windows of 4 and 3 bytes. -/
theorem witness_duration :
    ((plain 4).Inv ∧ (plain 4).valid = true) ∧ ((plain 3).Inv ∧ (plain 3).valid = true) ∧
    (readOut (plain 4) 2 2).lastErr = .ok ∧ (readOut (plain 3) 2 2).lastErr = .outOfRange :=
  ⟨meets (by decide), meets (by decide), by decide⟩

/-- AddrRdReturnsTheSlot and AddrWrWritesTheSlot: A4 at the end of the window and past it, absent in three ways. -/
theorem witness_address :
    ((wds 30).Inv ∧ (wds 30).valid = true) ∧ ((wds 29).Inv ∧ (wds 29).valid = true) ∧
    ((plain 32).Inv ∧ (plain 32).valid = true) ∧ (mgmt.Inv ∧ mgmt.valid = true) ∧ ((bar 20).Inv ∧ (bar 20).valid = true) ∧
    fieldPlace (wds 30) (slotField .a4) = .ok 24 ∧ (readOut (wds 30) 24 6).lastErr = .ok ∧
    (readOut (wds 29) 24 6).lastErr = .outOfRange ∧ fieldPlace (plain 32) (slotField .a4) = .error .fieldAbsent ∧
    fieldPlace mgmt (slotField .a4) = .error .inconsistentFlags ∧
    fieldPlace (bar 20) (slotField .a3) = .error .fieldAbsent :=
  ⟨meets (by decide), meets (by decide), meets (by decide), meets (by decide), meets (by decide), by decide, by decide,
    by decide, by decide, by decide, by decide⟩

/-- RoleRdReturnsTheAddressOfTheRole and RoleWrWritesTheAddressOfTheRole: the four flag combinations of a data frame, a
management frame and a BAR frame. -/
theorem witness_role :
    ((flagged 0).Inv ∧ (flagged 0).valid = true) ∧ ((flagged 1).Inv ∧ (flagged 1).valid = true) ∧
    ((flagged 2).Inv ∧ (flagged 2).valid = true) ∧ ((flagged 3).Inv ∧ (flagged 3).valid = true) ∧
    rolePlace (flagged 0) .bssid = some 16 ∧ rolePlace (flagged 1) .bssid = some 4 ∧
    rolePlace (flagged 2) .bssid = some 10 ∧ rolePlace (flagged 3) .bssid = none ∧ rolePlace (flagged 3) .sa = some 24 ∧
    rolePlace mgmt .da = some 4 ∧ rolePlace (bar 20) .da = none ∧ rolePlace (bar 20) .ra = some 4 :=
  ⟨meets (by decide), meets (by decide), meets (by decide), meets (by decide), by decide, by decide, by decide, by decide,
    by decide, by decide, by decide, by decide⟩

/-- CommitRecomputesTheHeaderLength, FsizeRdReturnsTheLiveLength and HlenRdReturnsTheCommittedLength: every row of
42_field_layout R134. -/
theorem witness_length :
    (mgmt.Inv ∧ mgmt.valid = true) ∧ mgmt.headerLen = 24 ∧ (flagged 2).headerLen = 24 ∧ (flagged 3).headerLen = 30 ∧
    (qosNull 26).headerLen = 26 ∧ (wds 32).headerLen = 32 ∧ (bar 20).headerLen = 20 ∧ (ba 28).headerLen = 28 ∧
    (baFull 84).headerLen = 84 :=
  ⟨meets (by decide), by decide, by decide, by decide, by decide, by decide, by decide, by decide, by decide⟩

/-- OffsetRdReturnsTheLayout: a field past the window still has its offset; an absent one has its error. -/
theorem witness_offset :
    ((wds 2).Inv ∧ (wds 2).valid = true) ∧ (mgmt.Inv ∧ mgmt.valid = true) ∧
    fieldPlace (wds 2) (.fixed .qos) = .ok 30 ∧ fieldPlace mgmt (.fixed .a4) = .error .inconsistentFlags ∧
    fieldPlace mgmt .bmp = .error .fieldAbsent ∧ fieldPlace (ba 28) .bmp = .ok 20 :=
  ⟨meets (by decide), meets (by decide), by decide, by decide, by decide, by decide⟩

/-- The six statements about Frame Control: the shortest window. -/
theorem witness_frameControl : (plain 2).Inv ∧ (plain 2).valid = true := meets (by decide)

/-- SequenceControlReadAndWrite and SequenceControlSubFields: windows of 24 and 23 bytes, and a kind without the word. -/
theorem witness_sequence :
    ((plain 24).Inv ∧ (plain 24).valid = true) ∧ ((plain 23).Inv ∧ (plain 23).valid = true) ∧
    ((bar 20).Inv ∧ (bar 20).valid = true) ∧ ¬ blockAck (plain 24) ∧ blockAck (bar 20) ∧
    (readOut (plain 24) 22 2).lastErr = .ok ∧ (readOut (plain 23) 22 2).lastErr = .outOfRange :=
  ⟨meets (by decide), meets (by decide), meets (by decide), by decide, by decide, by decide, by decide⟩

/-- QosControlReadAndWrite and QosControlSubFields: three and four addresses, each at the end of the window and past it, and a
kind without the word. -/
theorem witness_qos :
    ((qosNull 26).Inv ∧ (qosNull 26).valid = true) ∧ ((qosNull 25).Inv ∧ (qosNull 25).valid = true) ∧
    ((wds 32).Inv ∧ (wds 32).valid = true) ∧ ((wds 31).Inv ∧ (wds 31).valid = true) ∧
    ((plain 32).Inv ∧ (plain 32).valid = true) ∧ (qosNull 26).fourAddress = false ∧ (wds 32).fourAddress = true ∧
    (readOut (qosNull 26) 24 2).lastErr = .ok ∧ (readOut (qosNull 25) 24 2).lastErr = .outOfRange ∧
    (readOut (wds 32) 30 2).lastErr = .ok ∧ (readOut (wds 31) 30 2).lastErr = .outOfRange :=
  ⟨meets (by decide), meets (by decide), meets (by decide), meets (by decide), meets (by decide), by decide, by decide,
    by decide, by decide, by decide, by decide⟩

/-- The four statements about BA/BAR Control: BAR at the end of the window and past it, BA, and a kind without the word. -/
theorem witness_baControl :
    ((bar 18).Inv ∧ (bar 18).valid = true) ∧ ((bar 17).Inv ∧ (bar 17).valid = true) ∧ ((ba 18).Inv ∧ (ba 18).valid = true) ∧
    ((plain 24).Inv ∧ (plain 24).valid = true) ∧ blockAck (ba 18) ∧ ¬ blockAck (plain 24) ∧
    (readOut (bar 18) 16 2).lastErr = .ok ∧ (readOut (bar 17) 16 2).lastErr = .outOfRange :=
  ⟨meets (by decide), meets (by decide), meets (by decide), meets (by decide), by decide, by decide, by decide, by decide⟩

/-- StartingSequenceReadAndWrite and StartingSequenceSubFields: windows of 20 and 19 bytes, and a kind without the word. -/
theorem witness_startingSequence :
    ((ba 20).Inv ∧ (ba 20).valid = true) ∧ ((ba 19).Inv ∧ (ba 19).valid = true) ∧ ((plain 24).Inv ∧ (plain 24).valid = true) ∧
    (readOut (ba 20) 18 2).lastErr = .ok ∧ (readOut (ba 19) 18 2).lastErr = .outOfRange ∧ ¬ blockAck (plain 24) :=
  ⟨meets (by decide), meets (by decide), meets (by decide), by decide, by decide, by decide⟩

/-- The three statements about the bitmap: the last byte of each length, one past it, the window's end, and a kind without a
bitmap. -/
theorem witness_bitmap :
    ((ba 28).Inv ∧ (ba 28).valid = true) ∧ ((ba 27).Inv ∧ (ba 27).valid = true) ∧
    ((baFull 84).Inv ∧ (baFull 84).valid = true) ∧ ((baFull 83).Inv ∧ (baFull 83).valid = true) ∧
    ((bar 84).Inv ∧ (bar 84).valid = true) ∧
    bitmapError (ba 28) 7 = none ∧ bitmapError (ba 28) 8 = some .fieldAbsent ∧ bitmapError (ba 27) 7 = some .outOfRange ∧
    bitmapError (baFull 84) 63 = none ∧ bitmapError (baFull 84) 64 = some .fieldAbsent ∧
    bitmapError (baFull 83) 63 = some .outOfRange ∧ bitmapError (bar 84) 0 = some .fieldAbsent :=
  ⟨meets (by decide), meets (by decide), meets (by decide), meets (by decide), meets (by decide), by decide, by decide,
    by decide, by decide, by decide, by decide, by decide⟩

end Sys2Proof.Tests
end

section
/-! The memory rules of 00_scope R11: MemRead as the sum of its bytes, and every byte of a memory after MemWrite. -/
namespace Sys2Proof.Machine

/-- The recursion of `byteSum` is the sum that 00_scope R11 writes out. -/
theorem byteSum_eq_sum (m : Memory) (a n : Nat) :
    byteSum m a n = ((List.range n).map fun k => (Memory.byte m (a + k)).toNat * 2 ^ (8 * k)).sum := by
  induction n with
  | zero => rfl
  | succ n ih => simp [byteSum, List.range_succ, ih]

/-- The 48-bit bus carries the whole sum of at most six bytes. -/
theorem memRead_toNat (m : Memory) (a n : Nat) (hn : n ≤ 6) : (memRead m a n).toNat = byteSum m a n := by
  have hlt : byteSum m a n < 2 ^ 48 :=
    (byteSum_lt m a n).trans_le (Nat.pow_le_pow_right Nat.two_pos (by omega))
  rw [memRead, BitVec.toNat_ofNat, Nat.mod_eq_of_lt hlt]

/-- Every byte after MemWrite: those of the value in the span written, all others as before. -/
theorem byte_memWrite (m : Memory) (hm : Memory.wf m = true) (a n : Nat) (v : Data) (x : Nat) :
    Memory.byte (memWrite m a n v) x =
      if a ≤ x ∧ x < a + n then v.extractLsb' (8 * (x - a)) 8 else Memory.byte m x := by
  split_ifs with hx
  · obtain ⟨k, rfl⟩ := Nat.exists_eq_add_of_le hx.1
    rw [Nat.add_sub_cancel_left]
    exact memWrite_byte_inside m hm a n v k (by omega)
  · exact memWrite_byte_outside m hm a n v x (by omega)

/-- Settles O21: six bytes fit the bus, so MemRead is R11's sum; MemWrite is read back inside and outside its span. -/
theorem memReadAndMemWriteByByte : Obligations.MemReadAndMemWriteByByte := by
  refine ⟨fun m a n hn => ?_, fun m a n v x hm => byte_memWrite m hm a n v x⟩
  rw [memRead_toNat m a n hn, byteSum_eq_sum]

end Sys2Proof.Machine
end

section
/-! The header-length invariant of 10_state R27: every command either keeps what FrameSize() reads and HLEN, or commits, or
detaches the frame. Each case also keeps the invariant of Safety.lean, under which FrameSize() is the table's length. -/
namespace Sys2Proof.Machine

/-- Every length of 42_field_layout R134 fits the eight bits of HLEN. -/
theorem headerLenOf_lt (k : Kind) (both compr : Bool) : headerLenOf k both compr < 2 ^ 8 := by
  cases k <;> cases both <;> cases compr <;> decide

/-- Under the invariant HLEN is current exactly when it is the header length of the table. -/
theorem State.Inv.hlenCurrent_iff {s : State} (hi : s.Inv) :
    s.HlenCurrent ↔ (s.valid = true → s.hlen.toNat = s.headerLen) := by
  refine forall_congr' fun hv => ?_
  simp [State.frameSize_eq hi hv, eq_comm]

/-- With no frame attached there is no length to be current. -/
theorem State.hlenCurrent_of_detached {s : State} (hv : s.valid = false) : s.HlenCurrent :=
  fun h => absurd (hv.symm.trans h) Bool.false_ne_true

/-- A commit makes HLEN current, whatever it was: the length fits the register. -/
theorem State.hlenCurrent_setHlen {s : State} (hi : s.Inv) (hv : s.valid = true) {n : Nat} (hn : s.frameSize = .ok n) :
    (s.setHlen (BitVec.ofNat 8 n)).HlenCurrent := by
  have hlt : n < 2 ^ 8 := by
    rw [State.frameSize_eq hi hv, Except.ok.injEq] at hn
    exact hn ▸ headerLenOf_lt _ _ _
  exact fun _ => ⟨n, hn, by rw [State.setHlen_hlen, BitVec.toNat_ofNat, Nat.mod_eq_of_lt hlt]⟩

/-- The end of a command, with a value or with an error, changes neither HLEN nor what FrameSize() reads. -/
theorem State.HlenCurrent.complete {s : State} (hc : s.HlenCurrent) (v : Data) : (s.complete v).HlenCurrent := hc

theorem State.HlenCurrent.fail {s : State} (hc : s.HlenCurrent) (e : ErrCode) : (s.fail e).HlenCurrent := hc

theorem State.HlenCurrent.setWdata {s : State} (hc : s.HlenCurrent) (d : Data) : (s.setWdata d).HlenCurrent := hc

/-- A store and commit keeps the invariant, and leaves HLEN current even if it was not. -/
theorem State.StoreOf.inv_and_hlenCurrent {s u : State} (hu : s.StoreOf u) (hi : s.Inv) (hv : s.valid = true) :
    u.Inv ∧ u.HlenCurrent := by
  obtain ⟨a, k, v, n, rfl, ha, hn⟩ := hu
  have hi' := hi.setBuf a k v ha
  exact ⟨hi'.setHlen hv _, State.hlenCurrent_setHlen hi' hv hn⟩

/-- DECODE attaches a frame that meets the invariant, with HLEN current (43_dispatch_addresses R140). -/
theorem State.attach_inv_and_hlenCurrent {s u : State} {b a : Addr} (hu : s.attach b a = .ok u) (hi : s.Inv) :
    u.Inv ∧ u.HlenCurrent := by
  obtain ⟨k, n, rfl, hn, hfits, hmin, hkind, hba⟩ := State.attach_ok hu
  have hi' := hi.setWindow hfits hmin hkind hba
  exact ⟨hi'.setHlen rfl _, State.hlenCurrent_setHlen hi' rfl hn⟩

/-- Every meaning keeps the invariant, and with it a current HLEN. -/
theorem exec_keeps_inv_and_hlenCurrent {i : Instr} {s t : State} (hi : s.Inv) (h : exec i s = .next t) :
    t.Inv ∧ (s.HlenCurrent → t.HlenCurrent) := by
  by_cases hd : i = .decode
  · subst hd
    rcases execDecode_outcomes h with ⟨e, _, rfl⟩ | ⟨u, v, hu, rfl⟩
    · exact ⟨hi.invalidate.fail e, fun _ => State.hlenCurrent_of_detached rfl⟩
    · obtain ⟨hiu, hcu⟩ := State.attach_inv_and_hlenCurrent hu hi
      exact ⟨hiu.complete v, fun _ => hcu.complete v⟩
  · rcases exec_outcomes hd h with ⟨e, _, rfl⟩ | ⟨v, rfl⟩ | ⟨u, v, hv, hu, rfl⟩
    · exact ⟨hi.fail e, fun hc => hc.fail e⟩
    · exact ⟨hi.complete v, fun hc => hc.complete v⟩
    · obtain ⟨hiu, hcu⟩ := hu.inv_and_hlenCurrent hi hv
      exact ⟨hiu.complete v, fun _ => hcu.complete v⟩

/-- Every command, legal or not, keeps the invariant, and with it a current HLEN. -/
theorem runCommand_keeps_inv_and_hlenCurrent {s t : State} {w : Word} {d : Data} (hi : s.Inv)
    (h : runCommand w d s = .next t) : t.Inv ∧ (s.HlenCurrent → t.HlenCurrent) := by
  unfold runCommand at h
  split at h
  · obtain ⟨hit, hct⟩ := exec_keeps_inv_and_hlenCurrent (hi.setWdata d) h
    exact ⟨hit, fun hc => hct (hc.setWdata d)⟩
  · cases h
    exact ⟨(hi.setWdata d).fail _, fun hc => (hc.setWdata d).fail _⟩

/-- Settles O13: a command leaves HLEN and what FrameSize() reads, commits, or detaches the frame; the table's length is
FrameSize() because the invariant is kept too. -/
theorem everyCommandKeepsHlenCurrent : Obligations.EveryCommandKeepsHlenCurrent := by
  intro s t w d hi hc h
  obtain ⟨hit, hct⟩ := runCommand_keeps_inv_and_hlenCurrent hi h
  exact ⟨hct hc, hit.hlenCurrent_iff.mp (hct hc)⟩

end Sys2Proof.Machine
end

section
/-! The frame-control commands of 41_frame_control: in every attached frame the Frame Control word is the first two bytes of the
window, and the window holds them, so no command of the family raises an error. -/
namespace Sys2Proof.Machine
open Sys2Proof.Claims

/-! ## The words of an opcode that uses SEL -/

/-- A rejected word raises BAD_COMMAND, whatever the reason (30_encoding R65). -/
theorem runCommand_of_reject {w : Word} {r : Reject} (h : decodeWord w = .error r) (s : State) (d : Data) :
    runCommand w d s = .next ((s.setWdata d).fail .badCommand) := by
  simp [runCommand, h]

/-- The words of an opcode are settled by its eight decodings and the encodings of the commands listed. -/
theorem selWords_of_decode {opc : Nat} {is : List Instr}
    (hd : ∀ n < 8, (decodeWord (BitVec.ofNat 16 (opc + 64 * n))).toOption = is[n]?)
    (he : ∀ n < 8, ∀ i ∈ is[n]?, encode i = BitVec.ofNat 16 (opc + 64 * n)) : SelWords opc is := by
  intro n hn
  have hdn := hd n hn
  have hen := he n hn
  cases hw : decodeWord (BitVec.ofNat 16 (opc + 64 * n)) with
  | ok i =>
    rw [hw] at hdn
    rw [← hdn] at hen ⊢
    exact ⟨hen i rfl, rfl⟩
  | error r =>
    rw [hw] at hdn
    rw [← hdn]
    exact runCommand_of_reject hw

/-! ## Frame Control under the field accessors -/

/-- Every kind of an attached frame has Frame Control at offset 0 (42_field_layout R121). -/
theorem layoutOf_fc {k : Kind} (hk : k ≠ .none) (w4 : Bool) : layoutOf k w4 (.fixed .fc) = some 0 := by
  cases k
  case none => exact absurd rfl hk
  all_goals rfl

section
variable {s : State} (hi : s.Inv) (hv : s.valid = true)
include hi hv

theorem State.Inv.layout_fc : layoutOf s.kind s.fourAddress (.fixed .fc) = some 0 :=
  layoutOf_fc (hi.regs.attached hv).1 _

/-- The window of an attached frame holds Frame Control (10_state R26). -/
theorem State.Inv.two_le_avail : 2 ≤ s.avail.toNat := (hi.regs.attached hv).2.1

/-- The bounds check of Frame Control never fails. -/
theorem State.Inv.fc_in_window : ¬ s.avail.toNat < 0 + 2 := Nat.not_lt.mpr (hi.two_le_avail hv)

theorem State.fieldRd_fc : s.fieldRd .fc = .ok (memRead s.buf s.base.toNat 2) :=
  (State.fieldRd_some hi hv (hi.layout_fc hv)).trans (if_neg (hi.fc_in_window hv))

theorem State.fieldWr_fc (v : Data) : s.fieldWr .fc v = .ok (s.stored 0 2 v) :=
  (State.fieldWr_some hi hv (hi.layout_fc hv) v).trans (if_neg (hi.fc_in_window hv))

theorem State.subRd_fc (b : SubField) : s.subRd .fc b = .ok (subGet s.fcWord b) :=
  (State.subRd_some hi hv (hi.layout_fc hv) rfl b).trans (if_neg (hi.fc_in_window hv))

theorem State.subWr_fc (b : SubField) (x : Data) :
    s.subWr .fc b x = .ok (s.stored 0 2 ((subPut s.fcWord b x).setWidth 48)) :=
  (State.subWr_some hi hv (hi.layout_fc hv) rfl b x).trans (if_neg (hi.fc_in_window hv))

/-- A read of a sub-field of Frame Control answers its bits. -/
theorem State.finishRead_subRd_fc (b : SubField) :
    finishRead s (s.framed (s.subRd .fc b)) = .next (s.complete (bitsOf s.fcWord b.lsb b.width)) := by
  rw [s.framed_valid _ hv, State.subRd_fc hi hv, subGet_eq, finishRead_ok, bitsOf]

/-- A stored header word is a write of two bytes that commits the length of its own DS flags. -/
theorem State.stored_fc_complete (w : Word) :
    (s.stored 0 2 (w.setWidth 48)).complete 0 =
      writeOut s 0 2 (w.setWidth 48) (headerLenOf s.kind (bothFlags w) s.compressed) := by
  rw [State.stored_fc hi, writeOut, if_neg (hi.fc_in_window hv)]
  simp [bothFlags]

/-- A write of a sub-field of Frame Control stores the word with that sub-field put in, and commits. -/
theorem State.finishWrite_subWr_fc (b : SubField) (x : Data) :
    finishWrite s (s.framed (s.subWr .fc b x)) = .next (writeOut s 0 2 ((subPut s.fcWord b x).setWidth 48)
      (headerLenOf s.kind (bothFlags (subPut s.fcWord b x)) s.compressed)) := by
  rw [s.framed_valid _ hv, State.subWr_fc hi hv, finishWrite_ok, State.stored_fc_complete hi hv]

end

/-! ## Sub-fields as the rules number them -/

theorem isPut_subPut (w : Word) (b : SubField) (x : Data) : IsPut (subPut w b x) w (b.lsb, b.width) x :=
  fun i hi => subPut_getLsbD w b x i hi

/-- A sub-field below bit 8 leaves both DS flags. -/
theorem bothFlags_subPut (w : Word) {b : SubField} (hb : b.lsb + b.width ≤ 8) (x : Data) :
    bothFlags (subPut w b x) = bothFlags w := by
  rw [bothFlags, subPut_getLsbD _ _ _ _ (by decide), subPut_getLsbD _ _ _ _ (by decide), if_neg (by omega),
    if_neg (by omega), bothFlags]

theorem fcBits_eq (f : FcField) : fcBits f = ((FcField.bits f).lsb, (FcField.bits f).width) := by
  cases f <;> rfl

theorem flagBits_eq (f : Flag) : flagBits f = ((Flag.bits f).lsb, (Flag.bits f).width) := by
  cases f <;> rfl

/-- VER, TYPE and SUBTYPE lie below the flags (41_frame_control R101, R105). -/
theorem FcField.bits_below_flags (f : FcField) : (FcField.bits f).lsb + (FcField.bits f).width ≤ 8 := by
  cases f <;> decide

/-! ## The six commands -/

/-- Settles O38: Frame Control is present in every attached frame, inside the window. -/
theorem fcRdReturnsTheWord : Obligations.FcRdReturnsTheWord := by
  refine ⟨by decide, fun s hi hv => ?_⟩
  change finishRead s (s.framed (s.fieldRd .fc)) = _
  rw [s.framed_valid _ hv, State.fieldRd_fc hi hv, finishRead_ok]

/-- Settles O39: the commit reads the Frame Control word just stored, and the BA Control word there was. -/
theorem fcWrWritesTheWordAndCommits : Obligations.FcWrWritesTheWordAndCommits := by
  refine ⟨by decide, fun s hi hv => ?_⟩
  change finishWrite s (s.framed (s.fieldWr .fc s.wdata)) = _
  rw [s.framed_valid _ hv, State.fieldWr_fc hi hv, finishWrite_ok, State.stored_fc hi, Nat.add_zero]

/-- Settles O40: the sub-field read of Frame Control, at the bits of R105. -/
theorem fcfRdReturnsTheSubField : Obligations.FcfRdReturnsTheSubField := by
  refine ⟨selWords_of_decode (by decide) (by decide), fun s f hi hv => ?_⟩
  rw [fcBits_eq]
  exact State.finishRead_subRd_fc hi hv _

/-- Settles O41: the word stored has the DS flags there were, so the length committed is the live one. -/
theorem fcfWrWritesTheSubFieldOnly : Obligations.FcfWrWritesTheSubFieldOnly := by
  refine ⟨selWords_of_decode (by decide) (by decide), fun s f hi hv =>
    ⟨subPut s.fcWord (FcField.bits f) s.wdata, ?_, ?_, hi.two_le_avail hv⟩⟩
  · rw [fcBits_eq]
    exact isPut_subPut _ _ _
  · have hw := State.finishWrite_subWr_fc hi hv (FcField.bits f) s.wdata
    rw [bothFlags_subPut _ (FcField.bits_below_flags f)] at hw
    exact hw

/-- Settles O42: a flag is a sub-field one bit wide, at its bit of R102. -/
theorem flagRdReturnsTheFlag : Obligations.FlagRdReturnsTheFlag := by
  refine ⟨selWords_of_decode (by decide) (by decide), fun s f hi hv => ?_⟩
  rw [flagBits_eq]
  exact State.finishRead_subRd_fc hi hv _

/-- Settles O43: the length committed follows the DS flags of the word stored. -/
theorem flagWrWritesTheFlagAndCommits : Obligations.FlagWrWritesTheFlagAndCommits := by
  refine ⟨selWords_of_decode (by decide) (by decide), fun s f hi hv =>
    ⟨subPut s.fcWord (Flag.bits f) s.wdata, ?_, State.finishWrite_subWr_fc hi hv _ _, hi.two_le_avail hv⟩⟩
  rw [flagBits_eq]
  exact isPut_subPut _ _ _

end Sys2Proof.Machine
end

section
/-! The commands of 42_field_layout: COMMIT, FSIZE_RD, HLEN_RD and OFFSET_RD. The model's `State.present` gives each field the
place, or the error, that the rules write out, and that place depends on KIND and the two DS flags alone (R135). -/
namespace Sys2Proof.Machine
open Sys2Proof.Claims

/-! ## The words of an opcode that uses IDX -/

/-- The words of an opcode are settled by its 64 decodings and the encodings of the commands listed. -/
theorem idxWords_of_decode {opc : Nat} {is : List Instr}
    (hd : ∀ n < 64, (decodeWord (BitVec.ofNat 16 (opc + 512 * n))).toOption = is[n]?)
    (he : ∀ n < 64, ∀ i ∈ is[n]?, encode i = BitVec.ofNat 16 (opc + 512 * n)) : IdxWords opc is := by
  intro n hn
  have hdn := hd n hn
  have hen := he n hn
  cases hw : decodeWord (BitVec.ofNat 16 (opc + 512 * n)) with
  | ok i =>
    rw [hw] at hdn
    rw [← hdn] at hen ⊢
    exact ⟨hen i rfl, rfl⟩
  | error r =>
    rw [hw] at hdn
    rw [← hdn]
    exact runCommand_of_reject hw

/-! ## The place of a field -/

/-- The rules' place of a field is the entry of the layout table, or the error of a field it leaves out. Only A4 and QOS look at
the flags. -/
theorem fieldPlace_eq_layoutOf {s : State} (hk : s.kind ≠ .none) (f : Field) :
    fieldPlace s f = (layoutOf s.kind s.fourAddress f).elim (.error (s.absentCode f)) .ok := by
  unfold fieldPlace State.absentCode bothFlags blockAck
  generalize s.fourAddress = w
  generalize s.fcWord.getLsbD 8 = x
  generalize s.fcWord.getLsbD 9 = y
  generalize s.kind = k at hk ⊢
  cases k
  case none => exact absurd rfl hk
  all_goals
    cases f with
    | bmp => rfl
    | fixed g =>
      cases g
      case a4 => cases w <;> cases x <;> cases y <;> rfl
      case qos => cases w <;> rfl
      all_goals rfl

/-- `Present(f)` gives the place the rules write out, or raises the error they name. -/
theorem State.present_eq_fieldPlace {s : State} (hi : s.Inv) (hv : s.valid = true) (f : Field) :
    s.present f = (fieldPlace s f).mapError .raised := by
  rw [fieldPlace_eq_layoutOf (hi.regs.attached hv).1]
  cases hl : layoutOf s.kind s.fourAddress f with
  | some o => exact State.present_some hi hv hl
  | none => exact State.present_none hi hv hl

/-- Frames alike in KIND and both DS flags place every field alike. -/
theorem fieldPlace_congr {s u : State} (hk : s.kind = u.kind) (h8 : s.fcWord.getLsbD 8 = u.fcWord.getLsbD 8)
    (h9 : s.fcWord.getLsbD 9 = u.fcWord.getLsbD 9) (f : Field) : fieldPlace s f = fieldPlace u f := by
  unfold fieldPlace blockAck State.fourAddress bothFlags
  rw [hk, h8, h9]

/-- Frames alike in KIND, both DS flags and, for BA, the compressed-bitmap bit have one header length. -/
theorem State.headerLen_congr {s u : State} (hk : s.kind = u.kind) (h8 : s.fcWord.getLsbD 8 = u.fcWord.getLsbD 8)
    (h9 : s.fcWord.getLsbD 9 = u.fcWord.getLsbD 9) (hc : s.kind = .ba → s.compressed = u.compressed) :
    s.headerLen = u.headerLen := by
  unfold State.headerLen
  rw [headerLenOf_compr _ _ _ _ hc, hk, h8, h9]

/-! ## What the commands answer -/

theorem exec_hlenRd {s : State} (hv : s.valid = true) : exec .hlenRd s = .next (s.complete (s.hlen.setWidth 48)) := by
  rw [exec, execHlenRd, s.framed_valid _ hv, finishRead_ok]

section
variable {s : State} (hi : s.Inv) (hv : s.valid = true)
include hi hv

theorem exec_fsizeRd : exec .fsizeRd s = .next (s.complete (BitVec.ofNat 48 s.headerLen)) := by
  rw [exec, execFsizeRd, s.framed_valid _ hv, State.frameSize_eq hi hv, Except.map, finishRead_ok]

theorem exec_commit : exec .commit s =
    .next ((s.setHlen (BitVec.ofNat 8 s.headerLen)).complete (BitVec.ofNat 48 s.headerLen)) := by
  have hfits : (BitVec.ofNat 8 s.headerLen).setWidth 48 = BitVec.ofNat 48 s.headerLen :=
    BitVec.setWidth_ofNat_of_le_of_lt (by decide) (headerLenOf_lt _ _ _)
  rw [exec, execCommit, s.framed_valid _ hv, State.commit_eq hi hv, Except.map, finish_ok, State.setHlen_hlen, hfits]

theorem exec_offsetRd (f : Field) : exec (.offsetRd f) s = .next (offsetOut s f) := by
  rw [exec, execOffsetRd, s.framed_valid _ hv, State.present_eq_fieldPlace hi hv, offsetOut]
  cases fieldPlace s f <;> rfl

/-- A BA frame has a bitmap of 8 or 64 bytes, and no other kind has one (45_block_ack_bitmap R201). -/
theorem exec_bmpLenRd : exec .bmpLenRd s =
    .next (if s.kind = .ba then s.complete (if s.compressed then 8 else 64) else s.fail .fieldAbsent) := by
  rw [exec, execBmpLenRd, s.framed_valid _ hv, State.present_eq_fieldPlace hi hv, fieldPlace]
  by_cases hk : s.kind = .ba
  · rw [if_pos hk, if_pos hk, State.bl_eq hi hv hk]
    cases s.compressed <;> rfl
  · rw [if_neg hk, if_neg hk]
    rfl

end

/-! ## The statements -/

/-- Settles O36: HLEN_RD needs nothing but the frame. -/
theorem hlenRdReturnsTheCommittedLength : Obligations.HlenRdReturnsTheCommittedLength :=
  ⟨by decide, fun _ hv => exec_hlenRd hv⟩

/-- Settles O35: FrameSize() is the length of the table of R134, and FSIZE_RD looks at no bound. -/
theorem fsizeRdReturnsTheLiveLength : Obligations.FsizeRdReturnsTheLiveLength :=
  ⟨by decide, fun _ hi hv => exec_fsizeRd hi hv⟩

/-- Settles O34: every length of the table fits HLEN, so the value answered is the length itself. -/
theorem commitRecomputesTheHeaderLength : Obligations.CommitRecomputesTheHeaderLength :=
  ⟨by decide, fun _ hi hv => exec_commit hi hv⟩

/-- Settles O37: the model's presence check is the table of places, and OFFSET_RD looks at no bound. -/
theorem offsetRdReturnsTheLayout : Obligations.OffsetRdReturnsTheLayout :=
  ⟨idxWords_of_decode (by decide) (by decide), fun _ f hi hv => exec_offsetRd hi hv f⟩

/-- Settles O23: the places and the header length are functions of the flags named; the bitmap length has two values. -/
theorem layoutIsAPureFunctionOfTheFlags : Obligations.LayoutIsAPureFunctionOfTheFlags := by
  refine ⟨fun s u his hiu hvs hvu hk h8 h9 hc => ?_, fun s t hi hv h ht => ?_⟩
  · have hlen : u.headerLen = s.headerLen := (State.headerLen_congr hk h8 h9 hc).symm
    refine ⟨BitVec.ofNat 48 s.headerLen, exec_fsizeRd his hvs, hlen ▸ exec_fsizeRd hiu hvu,
      exec_fsizeRd (his.complete _) hvs, fun f => ?_⟩
    rw [exec_offsetRd his hvs, exec_offsetRd hiu hvu, offsetOut, offsetOut, fieldPlace_congr hk h8 h9]
    cases fieldPlace u f with
    | ok o => exact .inl ⟨_, rfl, rfl⟩
    | error e => exact .inr ⟨e, rfl, rfl⟩
  · rw [exec_bmpLenRd hi hv, Host.Outcome.next.injEq] at h
    subst h
    split_ifs at ht ⊢ with hk hc
    · exact .inl rfl
    · exact .inr rfl
    · cases ht

end Sys2Proof.Machine
end

section
/-! Whole fields by their places: where `fieldPlace` puts a field, its accessors read and write there, under the bounds check
alone; where it gives an error, they raise it (42_field_layout R129). -/
namespace Sys2Proof.Machine
open Sys2Proof.Claims

/-! ## The layout table by places -/

/-- A field has a place exactly where the layout table lists it. -/
theorem fieldPlace_eq_ok {s : State} (hk : s.kind ≠ .none) {f : Field} {o : Nat} :
    fieldPlace s f = .ok o ↔ layoutOf s.kind s.fourAddress f = some o := by
  rw [fieldPlace_eq_layoutOf hk]
  cases layoutOf s.kind s.fourAddress f <;> simp

/-- A field without a place is absent from the layout table, and the error is that of its absence. -/
theorem fieldPlace_eq_error {s : State} (hk : s.kind ≠ .none) {f : Field} {e : ErrCode} :
    fieldPlace s f = .error e ↔ layoutOf s.kind s.fourAddress f = none ∧ s.absentCode f = e := by
  rw [fieldPlace_eq_layoutOf hk]
  cases layoutOf s.kind s.fourAddress f <;> simp

/-- Every fixed-width field but Frame Control and BA Control is clear of the bytes FrameSize() reads. -/
theorem fieldPlace_clear {s : State} {f : FixedField} {o : Nat} (hfc : f ≠ .fc) (hbac : f ≠ .bac)
    (h : fieldPlace s (.fixed f) = .ok o) :
    2 ≤ o ∧ (s.kind = .ba → o + FixedField.width f ≤ 16 ∨ 18 ≤ o) := by
  cases f
  case fc => exact absurd rfl hfc
  case bac => exact absurd rfl hbac
  case dur | a1 | a2 =>
    cases h
    exact ⟨by decide, fun _ => .inl (by decide)⟩
  case a3 =>
    dsimp only [fieldPlace] at h
    split_ifs at h with hk
    cases h
    exact ⟨by decide, fun hba => absurd (.inr hba) hk⟩
  all_goals
    dsimp only [fieldPlace] at h
    split_ifs at h <;> cases h <;> exact ⟨by decide, fun _ => .inr (by decide)⟩

/-! ## The accessors of a whole field -/

section
variable {s : State} (hi : s.Inv) (hv : s.valid = true)
include hi hv

/-- A read of a field that has a place. -/
theorem State.finishRead_fieldRd_ok {f : FixedField} {o : Nat} (h : fieldPlace s (.fixed f) = .ok o) :
    finishRead s (s.framed (s.fieldRd f)) = .next (readOut s o (FixedField.width f)) := by
  rw [s.framed_valid _ hv, State.fieldRd_some hi hv ((fieldPlace_eq_ok (hi.regs.attached hv).1).mp h), finishRead_ite, readOut]

/-- A read of a field that has none. -/
theorem State.finishRead_fieldRd_error {f : FixedField} {e : ErrCode} (h : fieldPlace s (.fixed f) = .error e) :
    finishRead s (s.framed (s.fieldRd f)) = .next (s.fail e) := by
  obtain ⟨hl, rfl⟩ := (fieldPlace_eq_error (hi.regs.attached hv).1).mp h
  rw [s.framed_valid _ hv, State.fieldRd_none hi hv hl, finishRead_raised]

/-- A write of a field that has a place; clear of Frame Control and BA Control it commits the header length there was. -/
theorem State.finishWrite_fieldWr_ok {f : FixedField} {o : Nat} (hfc : f ≠ .fc) (hbac : f ≠ .bac)
    (h : fieldPlace s (.fixed f) = .ok o) (v : Data) :
    finishWrite s (s.framed (s.fieldWr f v)) = .next (writeOut s o (FixedField.width f) v s.headerLen) := by
  obtain ⟨hlow, hba⟩ := fieldPlace_clear hfc hbac h
  rw [s.framed_valid _ hv, State.fieldWr_some hi hv ((fieldPlace_eq_ok (hi.regs.attached hv).1).mp h), finishWrite_ite,
    State.stored_eq hi _ _ _ hlow hba, writeOut]

/-- A write of a field that has none. -/
theorem State.finishWrite_fieldWr_error {f : FixedField} {e : ErrCode} (h : fieldPlace s (.fixed f) = .error e) (v : Data) :
    finishWrite s (s.framed (s.fieldWr f v)) = .next (s.fail e) := by
  obtain ⟨hl, rfl⟩ := (fieldPlace_eq_error (hi.regs.attached hv).1).mp h
  rw [s.framed_valid _ hv, State.fieldWr_none hi hv hl, finishWrite_raised]

end

end Sys2Proof.Machine
end

section
/-! The commands of 43_dispatch_addresses: KIND_RD, DECODE, Duration, the address slots and the roles, and what changes KIND or
the layout (R145). -/
namespace Sys2Proof.Machine
open Sys2Proof.Claims

/-! ## KIND and the discriminator -/

/-- KIND on the read-data bus is its number (10_state R23). -/
theorem kindCode_setWidth (k : Kind) : (Kind.code k).setWidth 48 = BitVec.ofNat 48 (kindNumber k) := by
  cases k <;> rfl

/-- The discriminator is the table of R141, at every type and subtype. -/
theorem discriminate_eq_kindOf : ∀ (x : BitVec 2) (y : BitVec 4), discriminate x y = kindOf x.toNat y.toNat := by
  decide

theorem kindOf_ne_none {x y : Nat} {k : Kind} (h : kindOf x y = some k) : k ≠ .none := by
  unfold kindOf at h
  split at h <;> cases h <;> decide

/-- DECODE of a Frame Control word discriminates by its bits 3:2 and 7:4 (41_frame_control R101). -/
theorem discriminate_word (v : Data) :
    discriminate ((v.setWidth 16 : Word).extractLsb' 2 2) ((v.setWidth 16 : Word).extractLsb' 4 4) =
      kindOf (v.toNat / 4 % 4) (v.toNat / 16 % 16) := by
  rw [discriminate_eq_kindOf]
  simp only [BitVec.extractLsb'_toNat, BitVec.toNat_setWidth, Nat.shiftRight_eq_div_pow]
  congr 1 <;> omega

/-- The window on `cmd_wdata` (30_encoding R62): the base is its low 24 bits. -/
theorem decodeBase_toNat (d : Data) : (d.extractLsb' 0 24).toNat = d.toNat % 2 ^ 24 := by
  rw [BitVec.extractLsb'_toNat, Nat.shiftRight_zero]

/-- The length is its high 24 bits. -/
theorem decodeLength_toNat (d : Data) : (d.extractLsb' 24 24).toNat = d.toNat / 2 ^ 24 := by
  rw [BitVec.extractLsb'_toNat, Nat.shiftRight_eq_div_pow, Nat.mod_eq_of_lt (by omega)]

/-- DECODE checks the window, the type and the BA window in the order of R140; the frame it attaches meets the invariant, so its
commit takes the length of the table. -/
theorem exec_decode {s : State} (hi : s.Inv) : exec .decode s = .next (decodeOut s) := by
  rw [exec, execDecode, State.attach, decodeOut, ← decodeBase_toNat, ← decodeLength_toNat]
  generalize s.wdata.extractLsb' 0 24 = b
  generalize s.wdata.extractLsb' 24 24 = a
  dsimp only
  rw [discriminate_word]
  by_cases hw : s.bufSize < b.toNat + a.toNat ∨ a.toNat < 2
  · rw [if_pos hw, if_pos hw]
    rfl
  rw [if_neg hw, if_neg hw]
  cases hk : kindOf ((memRead s.buf b.toNat 2).toNat / 4 % 4) ((memRead s.buf b.toNat 2).toNat / 16 % 16) with
  | none => rfl
  | some k =>
    dsimp only
    by_cases hba : k = .ba ∧ a.toNat < 18
    · rw [if_pos hba, if_pos hba]
      rfl
    · have hiu : (s.setWindow b a k).Inv :=
        hi.setWindow (by omega) (by omega) (kindOf_ne_none hk) fun h => by_contra fun hlt => hba ⟨h, by omega⟩
      rw [if_neg hba, if_neg hba, State.commit_eq hiu rfl, Except.map, finish_ok, kindCode_setWidth, BitVec.ofNat_toNat,
        BitVec.ofNat_toNat, BitVec.setWidth_eq, BitVec.setWidth_eq, State.setHlen_kind, State.setWindow_kind]

/-! ## The role table -/

theorem slotField_eq (a : Slot) : slotField a = .fixed (Slot.field a) := by
  cases a <;> rfl

/-- Every slot is six bytes wide (43_dispatch_addresses R148). -/
theorem Slot.field_width (a : Slot) : FixedField.width (Slot.field a) = 6 := by
  cases a <;> rfl

theorem Slot.field_ne_fc (a : Slot) : Slot.field a ≠ .fc := by
  cases a <;> decide

theorem Slot.field_ne_bac (a : Slot) : Slot.field a ≠ .bac := by
  cases a <;> decide

/-- The role table of R151 places a role where its slot lies: a slot that plays a role is never absent. -/
theorem rolePlace_eq_roleSlotOf {s : State} (hk : s.kind ≠ .none) (r : Role) :
    (rolePlace s r).map Except.ok = (roleSlotOf s.kind (s.fcWord.getLsbD 8) (s.fcWord.getLsbD 9) r).map
      fun a => fieldPlace s (.fixed (Slot.field a)) := by
  unfold rolePlace fieldPlace State.fourAddress bothFlags blockAck
  generalize s.fcWord.getLsbD 8 = x
  generalize s.fcWord.getLsbD 9 = y
  generalize s.kind = k at hk ⊢
  cases k
  case none => exact absurd rfl hk
  all_goals cases r <;> cases x <;> cases y <;> rfl

section
variable {s : State} (hi : s.Inv) (hv : s.valid = true)
include hi hv

/-- A role with a place is played by the address field that lies there. -/
theorem State.roleField_of_rolePlace {r : Role} {o : Nat} (h : rolePlace s r = some o) :
    ∃ a, s.roleField r = .ok (Slot.field a) ∧ fieldPlace s (.fixed (Slot.field a)) = .ok o := by
  have ht := rolePlace_eq_roleSlotOf (hi.regs.attached hv).1 r
  rw [h] at ht
  obtain ⟨a, ha, hpl⟩ := Option.map_eq_some_iff.mp ht.symm
  exact ⟨a, by rw [State.roleField_eq hi hv, ha], hpl⟩

/-- A role with no place has no slot. -/
theorem State.roleField_absent {r : Role} (h : rolePlace s r = none) : s.roleField r = .error (.raised .fieldAbsent) := by
  have ht := rolePlace_eq_roleSlotOf (hi.regs.attached hv).1 r
  rw [h] at ht
  rw [State.roleField_eq hi hv, Option.map_eq_none_iff.mp ht.symm]

end

/-! ## What changes KIND or the layout -/

/-- A store and commit changes BUF and HLEN alone. -/
theorem State.StoreOf.window {s u : State} (hu : s.StoreOf u) :
    u.kind = s.kind ∧ u.valid = s.valid ∧ u.base = s.base ∧ u.avail = s.avail := by
  obtain ⟨a, k, v, n, rfl, _, _⟩ := hu
  exact ⟨rfl, rfl, rfl, rfl⟩

/-- No command but DECODE writes KIND, VALID, BASE or AVAIL (10_state R22). -/
theorem exec_keeps_window {s t : State} {i : Instr} (hd : i ≠ .decode) (h : exec i s = .next t) :
    t.kind = s.kind ∧ t.valid = s.valid ∧ t.base = s.base ∧ t.avail = s.avail := by
  rcases exec_outcomes hd h with ⟨e, _, rfl⟩ | ⟨v, rfl⟩ | ⟨u, v, _, hu, rfl⟩
  · exact ⟨rfl, rfl, rfl, rfl⟩
  · exact ⟨rfl, rfl, rfl, rfl⟩
  · exact hu.window

/-- Frames alike in what the layout looks at have one header length and one place for each field (42_field_layout R135). -/
theorem layout_congr {s t : State} (hk : t.kind = s.kind) (h8 : t.fcWord.getLsbD 8 = s.fcWord.getLsbD 8)
    (h9 : t.fcWord.getLsbD 9 = s.fcWord.getLsbD 9) (hbac : t.bacWord = s.bacWord) :
    t.headerLen = s.headerLen ∧ ∀ g, fieldPlace t g = fieldPlace s g :=
  ⟨State.headerLen_congr hk h8 h9 fun _ => by rw [State.compressed, State.compressed, hbac], fieldPlace_congr hk h8 h9⟩

/-- A store of a Frame Control word with the DS flags there were leaves the layout. -/
theorem State.layout_stored_fc {s : State} (hi : s.Inv) {v : Data} (h8 : v.getLsbD 8 = s.fcWord.getLsbD 8)
    (h9 : v.getLsbD 9 = s.fcWord.getLsbD 9) : (s.stored 0 2 v).headerLen = s.headerLen ∧
      ∀ g, fieldPlace (s.stored 0 2 v) g = fieldPlace s g := by
  have hfc : (s.stored 0 2 v).fcWord = v.setWidth 16 := State.fcWord_storeFc hi v
  refine layout_congr rfl ?_ ?_ (State.bacWord_store hi 0 2 v (by decide))
  · rw [hfc, BitVec.getLsbD_setWidth, h8]
    rfl
  · rw [hfc, BitVec.getLsbD_setWidth, h9]
    rfl

/-- A write of VER, TYPE or SUBTYPE leaves every flag of the word stored. -/
theorem FcField.subPut_flag (f : FcField) (w : Word) (x : Data) {i : Nat} (hflag : 8 ≤ i) (hi : i < 16) :
    ((subPut w (FcField.bits f) x).setWidth 48).getLsbD i = w.getLsbD i := by
  have hbits := FcField.bits_below_flags f
  rw [BitVec.getLsbD_setWidth, decide_eq_true (by omega), Bool.true_and, subPut_getLsbD _ _ _ _ hi, if_neg (by omega)]

section
variable {s : State} (hi : s.Inv) (hv : s.valid = true)
include hi hv

theorem exec_fcWr : exec .fcWr s = .next ((s.stored 0 2 s.wdata).complete 0) := by
  rw [exec, execFcWr, s.framed_valid _ hv, State.fieldWr_fc hi hv, finishWrite_ok]

theorem exec_fcfWr (f : FcField) : exec (.fcfWr f) s =
    .next ((s.stored 0 2 ((subPut s.fcWord (FcField.bits f) s.wdata).setWidth 48)).complete 0) := by
  rw [exec, execFcfWr, s.framed_valid _ hv, State.subWr_fc hi hv, finishWrite_ok]

end

/-- The flags are the second byte of Frame Control (41_frame_control R102). -/
theorem State.fcWord_flags (s : State) {i : Nat} (h : i < 8) :
    s.fcWord.getLsbD (8 + i) = (Memory.byte s.buf (s.base.toNat + 1)).getLsbD i := by
  have hword : (memRead s.buf s.base.toNat 2).toNat =
      2 ^ 8 * (Memory.byte s.buf (s.base.toNat + 1)).toNat + (Memory.byte s.buf s.base.toNat).toNat := by
    rw [memRead_toNat _ _ _ (by decide)]
    simp only [byteSum, Nat.add_zero]
    omega
  rw [State.fcWord, BitVec.getLsbD_setWidth, ← BitVec.testBit_toNat, hword,
    Nat.testBit_two_pow_mul_add _ (Memory.byte s.buf s.base.toNat).isLt, if_neg (by omega), Nat.add_sub_cancel_left,
    BitVec.testBit_toNat, decide_eq_true (by omega), Bool.true_and]

/-- Bytes past the first of the window fix the layout: the first holds VER, TYPE and SUBTYPE alone. -/
theorem State.layout_setBuf {s : State} {m : Memory} (h : ∀ x, s.base.toNat < x → Memory.byte m x = Memory.byte s.buf x) :
    (s.setBuf m).headerLen = s.headerLen ∧ ∀ g, fieldPlace (s.setBuf m) g = fieldPlace s g := by
  have hflag : ∀ i < 8, (s.setBuf m).fcWord.getLsbD (8 + i) = s.fcWord.getLsbD (8 + i) := fun i hi => by
    rw [State.fcWord_flags _ hi, State.fcWord_flags _ hi, State.setBuf_buf, State.setBuf_base, h _ (by omega)]
  refine layout_congr rfl (hflag 0 (by decide)) (hflag 1 (by decide)) ?_
  rw [State.bacWord, State.bacWord, State.setBuf_buf, State.setBuf_base, memRead_congr m s.buf _ _ fun k _ => h _ (by omega)]

/-- A host write inside BUF changes one byte and withdraws the response (70_reset_and_hazards R410). -/
theorem State.hostWrite_next {s t : State} {a : Addr} {b : Byte} (h : s.hostWrite a b = .next t) :
    t = (s.setBuf (Memory.set s.buf a.toNat b)).idle := by
  unfold State.hostWrite at h
  split_ifs at h
  exact (Host.Outcome.next.inj h).symm

/-! ## The statements -/

/-- Settles O18: a store that keeps the DS flags keeps the layout, and the byte of TYPE and SUBTYPE holds no flag. -/
theorem onlyDecodeChangesTheKind : Obligations.OnlyDecodeChangesTheKind := by
  refine ⟨fun s t i hd h => exec_keeps_window hd h, fun s t i hi hv h hw => ?_, fun s t a b hi hv h => ?_⟩
  · rcases hw with ⟨f, rfl⟩ | ⟨rfl, h8, h9⟩
    · rw [exec_fcfWr hi hv] at h
      cases h
      exact State.layout_stored_fc hi (FcField.subPut_flag f _ _ (by decide) (by decide))
        (FcField.subPut_flag f _ _ (by decide) (by decide))
    · rw [exec_fcWr hi hv] at h
      cases h
      exact State.layout_stored_fc hi h8 h9
  · obtain rfl := State.hostWrite_next h
    refine ⟨rfl, fun ha => State.layout_setBuf (s := s) (m := Memory.set s.buf a.toNat b) fun x hx => ?_⟩
    rw [Memory.byte_set _ hi.canonical, ha, if_neg (by omega)]

/-- Settles O28: the discriminator is the table of R141, and the commit of the attached frame takes the table's length. -/
theorem decodeAttachesOrDetaches : Obligations.DecodeAttachesOrDetaches :=
  ⟨by decide, fun _ hi => exec_decode hi⟩

/-- Settles O29: Duration has its place in every kind, clear of both control words. -/
theorem durationReadAndWrite : Obligations.DurationReadAndWrite :=
  ⟨by decide, by decide, fun s hi hv => ⟨State.finishRead_fieldRd_ok hi hv (f := .dur) rfl,
    State.finishWrite_fieldWr_ok hi hv (f := .dur) (by decide) (by decide) rfl s.wdata⟩⟩

/-- Settles O30: a slot is a field six bytes wide, read where it has its place. -/
theorem addrRdReturnsTheSlot : Obligations.AddrRdReturnsTheSlot := by
  refine ⟨selWords_of_decode (by decide) (by decide), fun s a hi hv => ?_⟩
  rw [slotField_eq]
  cases hp : fieldPlace s (.fixed (Slot.field a)) with
  | ok o =>
    rw [← Slot.field_width a]
    exact State.finishRead_fieldRd_ok hi hv hp
  | error e => exact State.finishRead_fieldRd_error hi hv hp

/-- Settles O31: no slot overlaps a control word, so the length committed is the one there was. -/
theorem addrWrWritesTheSlot : Obligations.AddrWrWritesTheSlot := by
  refine ⟨selWords_of_decode (by decide) (by decide), fun s a hi hv => ?_⟩
  rw [slotField_eq]
  cases hp : fieldPlace s (.fixed (Slot.field a)) with
  | ok o =>
    rw [← Slot.field_width a]
    exact State.finishWrite_fieldWr_ok hi hv (Slot.field_ne_fc a) (Slot.field_ne_bac a) hp s.wdata
  | error e => exact State.finishWrite_fieldWr_error hi hv hp s.wdata

/-- Settles O32: a role with a place is played by a slot that lies there, so its only errors are the absence and the bounds. -/
theorem roleRdReturnsTheAddressOfTheRole : Obligations.RoleRdReturnsTheAddressOfTheRole := by
  refine ⟨selWords_of_decode (by decide) (by decide), fun s r hi hv => ?_⟩
  rw [exec, execRoleRd]
  cases hp : rolePlace s r with
  | some o =>
    obtain ⟨a, hf, hpl⟩ := State.roleField_of_rolePlace hi hv hp
    rw [hf, ← Slot.field_width a]
    exact State.finishRead_fieldRd_ok hi hv hpl
  | none =>
    rw [State.roleField_absent hi hv hp, s.framed_valid _ hv]
    rfl

/-- Settles O33: the same slot as in the read, written as any slot is. -/
theorem roleWrWritesTheAddressOfTheRole : Obligations.RoleWrWritesTheAddressOfTheRole := by
  refine ⟨selWords_of_decode (by decide) (by decide), fun s r hi hv => ?_⟩
  rw [exec, execRoleWr]
  cases hp : rolePlace s r with
  | some o =>
    obtain ⟨a, hf, hpl⟩ := State.roleField_of_rolePlace hi hv hp
    rw [hf, ← Slot.field_width a]
    exact State.finishWrite_fieldWr_ok hi hv (Slot.field_ne_fc a) (Slot.field_ne_bac a) hpl s.wdata
  | none =>
    rw [State.roleField_absent hi hv hp, s.framed_valid _ hv]
    rfl

/-- Settles O27: with no frame attached KIND is NONE (10_state R25), whose number is 0. -/
theorem kindRdReturnsTheLatchedKind : Obligations.KindRdReturnsTheLatchedKind := by
  have hall : ∀ s : State, exec .kindRd s = .next (s.complete (BitVec.ofNat 48 (kindNumber s.kind))) := fun s => by
    rw [exec, execKindRd, finishRead_ok, kindCode_setWidth]
  refine ⟨by decide, hall, fun s hi hv => ?_⟩
  rw [hall, (hi.regs.detached hv).1]
  rfl

end Sys2Proof.Machine
end

section
/-! The control words of 44_control_subfields: Sequence Control, QoS Control, BA/BAR Control and Starting Sequence Control. Each
command answers at the place of its field, or with the error of its absence; a write of BA Control in a BA frame is the only one
that changes what FrameSize() reads. -/
namespace Sys2Proof.Machine
open Sys2Proof.Claims

/-! ## Answers at the place of a field -/

/-- The answer of a command on a field: what it does at the field's place, or the error of a field without one (42_field_layout
R127, R129). -/
def State.outAtPlace (s : State) (f : FixedField) (out : Nat → State) : State :=
  match fieldPlace s (.fixed f) with
  | .ok o => out o
  | .error e => s.fail e

theorem State.outAtPlace_ok {s : State} {f : FixedField} {o : Nat} (h : fieldPlace s (.fixed f) = .ok o) (out : Nat → State) :
    s.outAtPlace f out = out o := by
  rw [State.outAtPlace, h]

theorem State.outAtPlace_error {s : State} {f : FixedField} {e : ErrCode} (h : fieldPlace s (.fixed f) = .error e)
    (out : Nat → State) : s.outAtPlace f out = s.fail e := by
  rw [State.outAtPlace, h]

/-- Sequence Control lies at 22 in every kind but BAR and BA (42_field_layout R121). -/
theorem State.outAtPlace_sc (s : State) (out : Nat → State) :
    s.outAtPlace .sc out = if blockAck s then s.fail .fieldAbsent else out 22 := by
  split_ifs with h
  · exact State.outAtPlace_error (f := .sc) (if_pos h) out
  · exact State.outAtPlace_ok (f := .sc) (if_neg h) out

/-- QoS Control lies at 24, or at 30 under four addresses, in the two QoS kinds alone (42_field_layout R121, R124). -/
theorem State.outAtPlace_qos (s : State) (out : Nat → State) :
    s.outAtPlace .qos out = if s.kind = .qosData ∨ s.kind = .qosNull then out (if s.fourAddress then 30 else 24)
      else s.fail .fieldAbsent := by
  by_cases h : s.kind = .qosData ∨ s.kind = .qosNull
  · exact (State.outAtPlace_ok (f := .qos) (if_pos h) out).trans (if_pos h).symm
  · exact (State.outAtPlace_error (f := .qos) (if_neg h) out).trans (if_neg h).symm

/-- BA/BAR Control lies at 16 in BAR and BA alone (42_field_layout R123). -/
theorem State.outAtPlace_bac (s : State) (out : Nat → State) :
    s.outAtPlace .bac out = if blockAck s then out 16 else s.fail .fieldAbsent := by
  split_ifs with h
  · exact State.outAtPlace_ok (f := .bac) (if_pos h) out
  · exact State.outAtPlace_error (f := .bac) (if_neg h) out

/-- Starting Sequence Control lies at 18 in BAR and BA alone (42_field_layout R123). -/
theorem State.outAtPlace_ssc (s : State) (out : Nat → State) :
    s.outAtPlace .ssc out = if blockAck s then out 18 else s.fail .fieldAbsent := by
  split_ifs with h
  · exact State.outAtPlace_ok (f := .ssc) (if_pos h) out
  · exact State.outAtPlace_error (f := .ssc) (if_neg h) out

/-! ## The accessors of a word and of its sub-fields -/

/-- The state a write of the n bytes at window offset `off` answers: the bounds check, then the store and its commit. -/
def State.storeOut (s : State) (off n : Nat) (v : Data) : State :=
  if s.avail.toNat < off + n then s.fail .outOfRange else (s.stored off n v).complete 0

section
variable {s : State} (hi : s.Inv) (hv : s.valid = true) {f : FixedField}
include hi hv

theorem State.finishRead_fieldRd (hw : FixedField.width f = 2) :
    finishRead s (s.framed (s.fieldRd f)) = .next (s.outAtPlace f fun o => readOut s o 2) := by
  cases h : fieldPlace s (.fixed f) with
  | ok o => rw [State.outAtPlace_ok h, State.finishRead_fieldRd_ok hi hv h, hw]
  | error e => rw [State.outAtPlace_error h, State.finishRead_fieldRd_error hi hv h]

theorem State.finishRead_subRd (hw : FixedField.width f = 2) (b : SubField) :
    finishRead s (s.framed (s.subRd f b)) = .next (s.outAtPlace f fun o => subReadOut s o (b.lsb, b.width)) := by
  have hk := (hi.regs.attached hv).1
  rw [s.framed_valid _ hv]
  cases h : fieldPlace s (.fixed f) with
  | ok o =>
    rw [State.outAtPlace_ok h, State.subRd_some hi hv ((fieldPlace_eq_ok hk).mp h) hw, finishRead_ite, subGet_eq]
    rfl
  | error e =>
    obtain ⟨hl, rfl⟩ := (fieldPlace_eq_error hk).mp h
    rw [State.outAtPlace_error h, State.subRd_none hi hv hl, finishRead_raised]

theorem State.finishWrite_fieldWr (hw : FixedField.width f = 2) (v : Data) :
    finishWrite s (s.framed (s.fieldWr f v)) = .next (s.outAtPlace f fun o => s.storeOut o 2 v) := by
  cases h : fieldPlace s (.fixed f) with
  | ok o =>
    rw [s.framed_valid _ hv, State.outAtPlace_ok h,
      State.fieldWr_some hi hv ((fieldPlace_eq_ok (hi.regs.attached hv).1).mp h), hw, finishWrite_ite, State.storeOut]
  | error e => rw [State.outAtPlace_error h, State.finishWrite_fieldWr_error hi hv h]

/-- A sub-field write stores the word at the field's place with that sub-field put in. -/
theorem State.finishWrite_subWr (hw : FixedField.width f = 2) (b : SubField) (x : Data) :
    finishWrite s (s.framed (s.subWr f b x)) =
      .next (s.outAtPlace f fun o => s.storeOut o 2 ((subPut (s.wordAt o) b x).setWidth 48)) := by
  have hk := (hi.regs.attached hv).1
  rw [s.framed_valid _ hv]
  cases h : fieldPlace s (.fixed f) with
  | ok o =>
    rw [State.outAtPlace_ok h, State.subWr_some hi hv ((fieldPlace_eq_ok hk).mp h) hw, finishWrite_ite, State.storeOut]
  | error e =>
    obtain ⟨hl, rfl⟩ := (fieldPlace_eq_error hk).mp h
    rw [State.outAtPlace_error h, State.subWr_none hi hv hl, finishWrite_raised]

end

/-! ## What a write of a control word commits -/

/-- A store clear of Frame Control and BA Control commits the header length there was. -/
theorem State.storeOut_clear {s : State} (hi : s.Inv) {off n : Nat} (v : Data) (h : 18 ≤ off) :
    s.storeOut off n v = writeOut s off n v s.headerLen := by
  rw [State.storeOut, State.stored_eq hi off n v (by omega) fun _ => .inr h, writeOut]

/-- Both places of QoS Control lie past the words FrameSize() reads. -/
theorem State.qosPlace_clear (s : State) : 18 ≤ if s.fourAddress then 30 else 24 := by
  split_ifs <;> decide

/-- A store of BA Control commits 20 in a BAR frame, and in a BA frame the length the bit stored gives (42_field_layout R134). -/
theorem State.storeOut_bac {s : State} (hi : s.Inv) (hb : blockAck s) (v : Data) :
    s.storeOut 16 2 v = writeOut s 16 2 v (if s.kind = .bar then 20 else if v.getLsbD 2 then 28 else 84) := by
  rw [State.storeOut, writeOut]
  obtain hbar | hba := hb
  · have hlen : s.headerLen = 20 := by rw [State.headerLen, hbar]; rfl
    have hnot : s.kind ≠ .ba := by rw [hbar]; decide
    rw [if_pos hbar, State.stored_eq hi 16 2 v (by decide) fun hba => absurd hba hnot, hlen]
  · rw [State.stored_bac hi hba, if_neg (c := s.kind = .bar) (by rw [hba]; decide)]

/-- A write of BA Control, of a word that may depend on the one there was, in every kind. -/
theorem State.outAtPlace_bac_storeOut {s : State} (hi : s.Inv) (v : Nat → Data) :
    s.outAtPlace .bac (fun o => s.storeOut o 2 (v o)) = if blockAck s
      then writeOut s 16 2 (v 16) (if s.kind = .bar then 20 else if (v 16).getLsbD 2 then 28 else 84)
      else s.fail .fieldAbsent := by
  rw [State.outAtPlace_bac]
  exact ite_congr rfl (fun hb => State.storeOut_bac hi hb _) fun _ => rfl

/-! ## The bits of the sub-fields -/

theorem seqBits_eq (f : SeqField) : seqBits f = ((SeqField.bits f).lsb, (SeqField.bits f).width) := by
  cases f <;> rfl

theorem qosBits_eq (f : QosField) : qosBits f = ((QosField.bits f).lsb, (QosField.bits f).width) := by
  cases f <;> rfl

theorem bacBits_eq (f : BacField) : bacBits f = ((BacField.bits f).lsb, (BacField.bits f).width) := by
  cases f <;> rfl

/-! ## The statements -/

/-- Settles O44: Sequence Control lies past both words FrameSize() reads. -/
theorem sequenceControlReadAndWrite : Obligations.SequenceControlReadAndWrite := by
  refine ⟨by decide, by decide, fun s hi hv => ⟨?_, ?_⟩⟩
  · rw [exec, execScRd, State.finishRead_fieldRd hi hv rfl, State.outAtPlace_sc]
  · rw [exec, execScWr, State.finishWrite_fieldWr hi hv rfl, State.outAtPlace_sc, State.storeOut_clear hi _ (by decide)]

/-- Settles O45: FRAG and SEQ are read and put at the bits of R171 in the word of SC_RD. -/
theorem sequenceControlSubFields : Obligations.SequenceControlSubFields := by
  refine ⟨selWords_of_decode (by decide) (by decide), selWords_of_decode (by decide) (by decide), fun s f hi hv => ?_⟩
  rw [seqBits_eq]
  refine ⟨?_, _, isPut_subPut _ (SeqField.bits f) _, ?_⟩
  · rw [exec, execScfRd, State.finishRead_subRd hi hv rfl, State.outAtPlace_sc]
  · rw [exec, execScfWr, State.finishWrite_subWr hi hv rfl, State.outAtPlace_sc, State.storeOut_clear hi _ (by decide)]

/-- Settles O46: the four-address condition moves QoS Control, and a write of it changes no word that condition reads. -/
theorem qosControlReadAndWrite : Obligations.QosControlReadAndWrite := by
  refine ⟨by decide, by decide, fun s hi hv => ⟨?_, ?_⟩⟩
  · rw [exec, execQosRd, State.finishRead_fieldRd hi hv rfl, State.outAtPlace_qos]
  · rw [exec, execQosWr, State.finishWrite_fieldWr hi hv rfl, State.outAtPlace_qos, State.storeOut_clear hi _ s.qosPlace_clear]

/-- Settles O47: the five sub-fields are read and put at the bits of R176 in the word of QOS_RD. -/
theorem qosControlSubFields : Obligations.QosControlSubFields := by
  refine ⟨selWords_of_decode (by decide) (by decide), selWords_of_decode (by decide) (by decide), fun s f hi hv => ?_⟩
  rw [qosBits_eq]
  refine ⟨?_, _, isPut_subPut _ (QosField.bits f) _, ?_⟩
  · rw [exec, execQsfRd, State.finishRead_subRd hi hv rfl, State.outAtPlace_qos]
  · rw [exec, execQsfWr, State.finishWrite_subWr hi hv rfl, State.outAtPlace_qos, State.storeOut_clear hi _ s.qosPlace_clear]

/-- Settles O48: BA/BAR Control has its place in BAR and BA alone. -/
theorem bacRdReturnsTheWord : Obligations.BacRdReturnsTheWord := by
  refine ⟨by decide, fun s hi hv => ?_⟩
  rw [exec, execBacRd, State.finishRead_fieldRd hi hv rfl, State.outAtPlace_bac]

/-- Settles O49: the commit reads the BA Control word just stored. -/
theorem bacWrWritesTheWordAndCommits : Obligations.BacWrWritesTheWordAndCommits := by
  refine ⟨by decide, fun s hi hv => ?_⟩
  rw [exec, execBacWr, State.finishWrite_fieldWr hi hv rfl, State.outAtPlace_bac_storeOut hi fun _ => s.wdata]

/-- Settles O50: the four sub-fields are read at the bits of R181 in the word of BAC_RD. -/
theorem bacfRdReturnsTheSubField : Obligations.BacfRdReturnsTheSubField := by
  refine ⟨selWords_of_decode (by decide) (by decide), fun s f hi hv => ?_⟩
  rw [exec, execBacfRd, State.finishRead_subRd hi hv rfl, State.outAtPlace_bac, bacBits_eq]

/-- Settles O51: the commit reads the compressed-bitmap bit of the word with the sub-field put in. -/
theorem bacfWrWritesTheSubFieldAndCommits : Obligations.BacfWrWritesTheSubFieldAndCommits := by
  refine ⟨selWords_of_decode (by decide) (by decide), fun s f hi hv => ?_⟩
  rw [bacBits_eq]
  refine ⟨_, isPut_subPut _ (BacField.bits f) _, ?_⟩
  rw [exec, execBacfWr, State.finishWrite_subWr hi hv rfl,
    State.outAtPlace_bac_storeOut hi fun o => (subPut (s.wordAt o) (BacField.bits f) s.wdata).setWidth 48,
    BitVec.getLsbD_setWidth, decide_eq_true (by decide), Bool.true_and]

/-- Settles O52: Starting Sequence Control lies just past BA Control. -/
theorem startingSequenceReadAndWrite : Obligations.StartingSequenceReadAndWrite := by
  refine ⟨by decide, by decide, fun s hi hv => ⟨?_, ?_⟩⟩
  · rw [exec, execSscRd, State.finishRead_fieldRd hi hv rfl, State.outAtPlace_ssc]
  · rw [exec, execSscWr, State.finishWrite_fieldWr hi hv rfl, State.outAtPlace_ssc, State.storeOut_clear hi _ (by decide)]

/-- Settles O53: FRAG and SEQ are read and put at the bits of R186 in the word of SSC_RD. -/
theorem startingSequenceSubFields : Obligations.StartingSequenceSubFields := by
  refine ⟨selWords_of_decode (by decide) (by decide), selWords_of_decode (by decide) (by decide), fun s f hi hv => ?_⟩
  rw [seqBits_eq]
  refine ⟨?_, _, isPut_subPut _ (SeqField.bits f) _, ?_⟩
  · rw [exec, execSscfRd, State.finishRead_subRd hi hv rfl, State.outAtPlace_ssc]
  · rw [exec, execSscfWr, State.finishWrite_subWr hi hv rfl, State.outAtPlace_ssc, State.storeOut_clear hi _ (by decide)]

end Sys2Proof.Machine
end

section
/-! The bitmap commands of 45_block_ack_bitmap: the address of a bitmap byte, or the error of one that cannot be reached, and
what a read and a write of one byte are. -/
namespace Sys2Proof.Machine
open Sys2Proof.Claims

/-! ## One byte of BUF -/

/-- A read of one byte puts it on the read-data bus. -/
theorem memRead_one (m : Memory) (a : Nat) : memRead m a 1 = (Memory.byte m a).setWidth 48 := by
  apply BitVec.eq_of_toNat_eq
  rw [memRead_toNat m a 1 (by decide), BitVec.toNat_setWidth_of_le (by decide)]
  simp [byteSum]

/-- A write of one byte stores the low 8 bits of the value. -/
theorem memWrite_one (m : Memory) (a : Nat) (v : Data) : memWrite m a 1 v = Memory.set m a (v.setWidth 8) := by
  rw [memWrite, memWrite, Nat.add_zero, Nat.mul_zero, BitVec.setWidth_eq_extractLsb' (by decide)]

section
variable {s : State} (hi : s.Inv) (hv : s.valid = true)
include hi hv

/-- A bitmap byte is at BASE + 20 + i, unless the checks of R202 name an error. -/
theorem State.locateBitmap_eq_bitmapError (i : Nat) :
    s.locateBitmap i = (bitmapError s i).elim (.ok (s.base.toNat + 20 + i)) (fun e => .error (.raised e)) := by
  unfold bitmapError
  by_cases hk : s.kind = .ba
  · rw [State.locateBitmap_ba hi hv hk, if_neg (not_not_intro hk), bitmapBytes, Nat.add_right_comm 20 i 1, ← Nat.add_assoc]
    split_ifs <;> rfl
  · rw [State.locateBitmap_absent hi hv hk, if_pos hk, Option.elim_some]

/-- A store of a bitmap byte is clear of Frame Control and BA Control, so its commit takes the length there was. -/
theorem State.commit_bitmapStore {i : Nat} (he : bitmapError s i = none) :
    (s.setBuf (Memory.set s.buf (s.base.toNat + 20 + i) (s.wdata.setWidth 8))).commit =
      .ok ((s.setBuf (Memory.set s.buf (s.base.toNat + 20 + i) (s.wdata.setWidth 8))).setHlen
        (BitVec.ofNat 8 s.headerLen)) := by
  have hw : 20 + i + 1 ≤ s.avail.toNat := by
    unfold bitmapError at he
    split_ifs at he
    omega
  rw [← memWrite_one, Nat.add_assoc, State.commit_eq (hi.setBuf_memWrite hv (20 + i) 1 s.wdata hw) hv,
    State.headerLen_store hi (20 + i) 1 s.wdata (by omega) fun _ => .inr (by omega)]

end

/-! ## The statements -/

/-- Settles O54: the bitmap length is a matter of KIND and BA Control, and no bound is looked at. -/
theorem bmpLenRdReturnsEightOrSixtyFour : Obligations.BmpLenRdReturnsEightOrSixtyFour :=
  ⟨by decide, fun _ hi hv => exec_bmpLenRd hi hv⟩

/-- Settles O55: every index is a legal word, and the checks of R202 decide between the byte and the error. -/
theorem bmpRdReturnsTheByte : Obligations.BmpRdReturnsTheByte := by
  refine ⟨idxWords_of_decode (by decide) (by decide), fun s i hi hv => ?_⟩
  rw [exec, execBmpRd, s.framed_valid _ hv, State.locateBitmap_eq_bitmapError hi hv]
  cases bitmapError s i with
  | some e => rfl
  | none =>
    change finishRead s (.ok (memRead s.buf (s.base.toNat + 20 + i) 1)) = _
    rw [memRead_one, finishRead_ok]

/-- Settles O56: the errors are those of the read, and the byte stored is none that FrameSize() reads. -/
theorem bmpWrWritesTheByte : Obligations.BmpWrWritesTheByte := by
  refine ⟨idxWords_of_decode (by decide) (by decide), fun s i hi hv => ?_⟩
  rw [exec, execBmpWr, s.framed_valid _ hv, State.locateBitmap_eq_bitmapError hi hv]
  cases he : bitmapError s i with
  | some e => rfl
  | none =>
    change finishWrite s (s.setBuf (memWrite s.buf (s.base.toNat + 20 + i) 1 s.wdata)).commit = _
    rw [memWrite_one, State.commit_bitmapStore hi hv he, finishWrite_ok]

end Sys2Proof.Machine
end

section
/-! The status and window commands of 46_status: NOP, STATUS_RD and WIN_RD, which answer in every state. The status word is an
OR of shifted registers; their bits do not meet, so it is the sum of the numbers of 10_state R24. -/
namespace Sys2Proof.Machine
open Sys2Proof.Claims

/-! ## The status word as a number -/

/-- The code of KIND is its number (10_state R23). -/
theorem kindCode_toNat (k : Kind) : (Kind.code k).toNat = kindNumber k := by
  cases k <;> rfl

/-- The code of an error is its number (60_exceptions R300). -/
theorem errCode_toNat (e : ErrCode) : (ErrCode.code e).toNat = errNumber e := by
  cases e <;> rfl

/-- A register shifted left within the 16 bits of the status word is multiplied by a power of 2. -/
theorem shiftedRegister_toNat {n : Nat} (x : BitVec n) (i : Nat) (h : n + i ≤ 16) :
    (x.setWidth 16 <<< i).toNat = 2 ^ i * x.toNat := by
  have hlt : 2 ^ i * x.toNat < 2 ^ 16 := calc
    2 ^ i * x.toNat < 2 ^ i * 2 ^ n := Nat.mul_lt_mul_of_pos_left x.isLt (Nat.two_pow_pos i)
    _ = 2 ^ (n + i) := by rw [Nat.mul_comm, Nat.pow_add]
    _ ≤ 2 ^ 16 := Nat.pow_le_pow_right Nat.two_pos h
  rw [BitVec.toNat_shiftLeft, BitVec.toNat_setWidth_of_le (by omega), Nat.shiftLeft_eq, Nat.mul_comm, Nat.mod_eq_of_lt hlt]

/-- The status word is the sum of its registers at their places: each OR meets no bit of the registers below. -/
theorem statusWord_toNat (r : Regs) :
    (statusWord r).toNat = r.valid.toNat + 2 * kindNumber r.kind + 16 * errNumber r.lastErr + 256 * r.sticky.toNat := by
  have hv : r.valid.toNat < 2 ^ 1 := r.valid.toNat_lt
  have hk : (Kind.code r.kind).toNat < 2 ^ 3 := (Kind.code r.kind).isLt
  have he : (ErrCode.code r.lastErr).toNat < 2 ^ 3 := (ErrCode.code r.lastErr).isLt
  rw [statusWord, BitVec.toNat_or, BitVec.toNat_or, BitVec.toNat_or, shiftedRegister_toNat _ 8 (by decide),
    shiftedRegister_toNat _ 4 (by decide), shiftedRegister_toNat _ 1 (by decide), BitVec.toNat_setWidth_of_le (by decide),
    BitVec.toNat_ofBool, Nat.or_assoc, Nat.or_assoc, ← Nat.two_pow_add_eq_or_of_lt hv,
    ← Nat.two_pow_add_eq_or_of_lt (i := 4) (by omega), ← Nat.two_pow_add_eq_or_of_lt (by omega), kindCode_toNat, errCode_toNat]
  omega

/-! ## The window registers -/

/-- WIN_RD answers in every state, attached or not (46_status R212). -/
theorem exec_winRd_base (s : State) : exec (.winRd .base) s = .next (s.complete (s.base.setWidth 48)) := by
  rw [exec, execWinRd, finishRead_ok]

theorem exec_winRd_avail (s : State) : exec (.winRd .avail) s = .next (s.complete (s.avail.setWidth 48)) := by
  rw [exec, execWinRd, finishRead_ok]

/-! ## The statements -/

/-- Settles O25: the status word is the sum R24 writes out, read before LAST_ERR is set to 0. -/
theorem statusRdPacksTheRegisters : Obligations.StatusRdPacksTheRegisters := by
  refine ⟨by decide, fun s => ?_⟩
  rw [exec, execStatusRd, finishRead_ok, ← BitVec.ofNat_toNat, statusWord_toNat]

/-- Settles O24: NOP is a read that always answers 0. -/
theorem nopReturnsZero : Obligations.NopReturnsZero := by
  refine ⟨by decide, fun s => ?_⟩
  rw [exec, execNop, finishRead_ok]

/-- Settles O26: WIN_RD answers the register named, and the invariant (10_state R25) has both at 0 with no frame attached. -/
theorem winRdReturnsTheWindow : Obligations.WinRdReturnsTheWindow := by
  refine ⟨selWords_of_decode (by decide) (by decide), fun s => ⟨exec_winRd_base s, exec_winRd_avail s⟩,
    fun s hi hv r => ?_⟩
  obtain ⟨-, -, hbase, havail⟩ := hi.regs.detached hv
  cases r with
  | base => rw [exec_winRd_base, hbase]; rfl
  | avail => rw [exec_winRd_avail, havail]; rfl

end Sys2Proof.Machine
end

section
/-! The exceptions of 60_exceptions: every command but five stands behind the frame check (R303), no command under the invariant
stops with a fault (R313), and a command that raises an error does so by the one operation `State.fail` (R306, R307). An illegal
word is one outside the opcode map (R304, 30_encoding R65). -/
namespace Sys2Proof.Machine
open Sys2Proof.Claims

/-! ## Operations that never fault -/

/-- An operation gives a value or raises an error: it stops with no fault of the model. -/
def NeverFaults {α : Type} (r : Except Stop α) : Prop := ∀ f, r ≠ .error (.fault f)

theorem NeverFaults.ok {α : Type} (x : α) : NeverFaults (.ok x : Except Stop α) := nofun

theorem NeverFaults.raised {α : Type} (e : ErrCode) : NeverFaults (.error (.raised e) : Except Stop α) := nofun

theorem NeverFaults.bind {α β : Type} {r : Except Stop α} {g : α → Except Stop β} (hr : NeverFaults r)
    (hg : ∀ x, r = .ok x → NeverFaults (g x)) : NeverFaults (r >>= g) :=
  match r, hr, hg with
  | .ok x, _, hg => hg x rfl
  | .error (.raised e), _, _ => .raised e
  | .error (.fault f), hr, _ => absurd rfl (hr f)

theorem NeverFaults.map {α β : Type} {r : Except Stop α} (hr : NeverFaults r) (g : α → β) : NeverFaults (r.map g) :=
  match r, hr with
  | .ok x, _ => .ok (g x)
  | .error (.raised e), _ => .raised e
  | .error (.fault f), hr => absurd rfl (hr f)

section
variable {s : State} (hi : s.Inv) (hv : s.valid = true)
include hi hv

theorem State.access_neverFaults (off n : Nat) : NeverFaults (s.access off n) := by
  rw [s.access_eq hi hv]
  split_ifs
  · exact .raised _
  · exact .ok _

theorem State.bl_neverFaults : NeverFaults s.bl :=
  ((State.access_neverFaults hi hv 16 2).bind fun _ _ => .ok _ : NeverFaults s.bac).bind fun _ _ => .ok _

theorem State.frameSize_neverFaults : NeverFaults s.frameSize := State.frameSize_eq hi hv ▸ .ok _

theorem State.commit_neverFaults : NeverFaults s.commit := State.commit_eq hi hv ▸ .ok _

/-- A commit after a store in BUF: the store keeps the invariant. -/
theorem State.commit_setBuf_neverFaults {a k : Nat} (v : Data) (ha : a + k ≤ s.bufSize) :
    NeverFaults (s.setBuf (memWrite s.buf a k v)).commit :=
  State.commit_neverFaults (hi.setBuf a k v ha) hv

theorem State.present_neverFaults (f : Field) : NeverFaults (s.present f) := by
  rw [State.present_eq_fieldPlace hi hv]
  cases fieldPlace s f with
  | ok o => exact .ok o
  | error e => exact .raised e

theorem State.locate_neverFaults (f : FixedField) : NeverFaults (s.locate f) :=
  (State.present_neverFaults hi hv _).bind fun _ _ => State.access_neverFaults hi hv _ _

theorem State.locateBitmap_neverFaults (i : Nat) : NeverFaults (s.locateBitmap i) := by
  rw [State.locateBitmap_eq_bitmapError hi hv]
  cases bitmapError s i with
  | none => exact .ok _
  | some e => exact .raised e

theorem State.roleField_neverFaults (r : Role) : NeverFaults (s.roleField r) := by
  rw [State.roleField_eq hi hv]
  split
  · exact .ok _
  · exact .raised _

theorem State.fieldRd_neverFaults (f : FixedField) : NeverFaults (s.fieldRd f) :=
  (State.locate_neverFaults hi hv f).bind fun _ _ => .ok _

theorem State.fieldWr_neverFaults (f : FixedField) (v : Data) : NeverFaults (s.fieldWr f v) :=
  (State.locate_neverFaults hi hv f).bind fun _ ha => State.commit_setBuf_neverFaults hi hv v (State.locate_ok ha)

theorem State.subRd_neverFaults (f : FixedField) (b : SubField) : NeverFaults (s.subRd f b) :=
  (State.fieldRd_neverFaults hi hv f).bind fun _ _ => .ok _

theorem State.subWr_neverFaults (f : FixedField) (b : SubField) (x : Data) : NeverFaults (s.subWr f b x) :=
  (State.fieldRd_neverFaults hi hv f).bind fun _ _ => State.fieldWr_neverFaults hi hv f _

end

/-! ## The frame check -/

/-- The answer `o` stands behind the frame check of `s` (R303), and what is behind it never faults under the invariant. -/
def State.BehindFrameCheck (s : State) (o : Result) : Prop :=
  ∃ r : Except Stop (State × Data), o = finish s (s.framed r) ∧ (s.Inv → s.valid = true → NeverFaults r)

theorem State.framed_map {α β : Type} (s : State) (r : Except Stop α) (g : α → β) :
    (s.framed r).map g = s.framed (r.map g) := by
  unfold State.framed
  split_ifs <;> rfl

theorem State.BehindFrameCheck.read {s : State} {r : Except Stop Data}
    (hr : s.Inv → s.valid = true → NeverFaults r) : s.BehindFrameCheck (finishRead s (s.framed r)) :=
  ⟨_, by rw [finishRead, s.framed_map], fun hi hv => (hr hi hv).map _⟩

theorem State.BehindFrameCheck.write {s : State} {r : Except Stop State}
    (hr : s.Inv → s.valid = true → NeverFaults r) : s.BehindFrameCheck (finishWrite s (s.framed r)) :=
  ⟨_, by rw [finishWrite, s.framed_map], fun hi hv => (hr hi hv).map _⟩

/-- With no frame attached the check is all there is (R303, R309). -/
theorem State.BehindFrameCheck.of_invalid {s : State} {o : Result} (h : s.BehindFrameCheck o) (hv : s.valid = false) :
    o = .next (s.fail .notDecoded) := by
  obtain ⟨r, rfl, -⟩ := h
  rw [s.framed_invalid r hv, finish_raised]

theorem finish_answers {r : Except Stop (State × Data)} (hr : NeverFaults r) (s : State) : ∃ t, finish s r = .next t :=
  match r, hr with
  | .ok (u, v), _ => ⟨_, finish_ok s u v⟩
  | .error (.raised e), _ => ⟨_, finish_raised s e⟩
  | .error (.fault f), hr => absurd rfl (hr f)

/-- Under the invariant what stands behind the check answers, whether the check passes or not. -/
theorem State.BehindFrameCheck.answers {s : State} {o : Result} (h : s.BehindFrameCheck o) (hi : s.Inv) :
    ∃ t, o = .next t := by
  cases hv : s.valid with
  | false => exact ⟨_, h.of_invalid hv⟩
  | true =>
    obtain ⟨r, rfl, hr⟩ := h
    rw [s.framed_valid r hv]
    exact finish_answers (hr hi hv) s

/-- Every command marked "needs frame" in 30_encoding R68 stands behind the frame check. -/
theorem exec_behindFrameCheck {i : Instr} (hn : needsFrame i = true) (s : State) : s.BehindFrameCheck (exec i s) := by
  cases i
  case nop | decode | statusRd | winRd | kindRd => exact Bool.noConfusion hn
  case commit => exact ⟨_, rfl, fun hi hv => (State.commit_neverFaults hi hv).map _⟩
  case fsizeRd => exact .read fun hi hv => (State.frameSize_neverFaults hi hv).map _
  case hlenRd => exact .read fun _ _ => .ok _
  case offsetRd f => exact .read fun hi hv => (State.present_neverFaults hi hv f).map _
  case fcRd | durRd | addrRd | scRd | qosRd | bacRd | sscRd => exact .read fun hi hv => State.fieldRd_neverFaults hi hv _
  case fcfRd | flagRd | scfRd | qsfRd | bacfRd | sscfRd => exact .read fun hi hv => State.subRd_neverFaults hi hv _ _
  case fcWr | durWr | addrWr | scWr | qosWr | bacWr | sscWr => exact .write fun hi hv => State.fieldWr_neverFaults hi hv _ _
  case fcfWr | flagWr | scfWr | qsfWr | bacfWr | sscfWr => exact .write fun hi hv => State.subWr_neverFaults hi hv _ _ _
  case roleRd r =>
    exact .read fun hi hv => (State.roleField_neverFaults hi hv r).bind fun _ _ => State.fieldRd_neverFaults hi hv _
  case roleWr r =>
    exact .write fun hi hv => (State.roleField_neverFaults hi hv r).bind fun _ _ => State.fieldWr_neverFaults hi hv _ _
  case bmpLenRd =>
    exact .read fun hi hv => (State.present_neverFaults hi hv .bmp).bind fun _ _ =>
      (State.bl_neverFaults hi hv).bind fun _ _ => .ok _
  case bmpRd i => exact .read fun hi hv => (State.locateBitmap_neverFaults hi hv i).bind fun _ _ => .ok _
  case bmpWr i =>
    exact .write fun hi hv => (State.locateBitmap_neverFaults hi hv i).bind fun _ ha =>
      State.commit_setBuf_neverFaults hi hv _ (State.locateBitmap_ok ha)

/-! ## What a command word can do -/

/-- Every meaning answers under the invariant: behind the frame check, or as one of the five commands that need no frame. -/
theorem exec_answers {s : State} (hi : s.Inv) (i : Instr) : ∃ t, exec i s = .next t := by
  cases hn : needsFrame i with
  | true => exact (exec_behindFrameCheck hn s).answers hi
  | false =>
    cases i
    case decode => exact ⟨_, exec_decode hi⟩
    case nop | statusRd | winRd | kindRd => exact ⟨_, finishRead_ok s _⟩
    all_goals exact Bool.noConfusion hn

/-- A legal word runs the command it decodes to, with the write data on the bus. -/
theorem runCommand_of_decode {w : Word} {i : Instr} (h : decodeWord w = .ok i) (s : State) (d : Data) :
    runCommand w d s = exec i (s.setWdata d) := by
  simp [runCommand, h]

/-- Every command word, legal or not, answers under the invariant (R313). -/
theorem runCommand_answers {s : State} (hi : s.Inv) (w : Word) (d : Data) : ∃ t, runCommand w d s = .next t := by
  cases hw : decodeWord w with
  | ok i =>
    obtain ⟨t, ht⟩ := exec_answers (hi.setWdata d) i
    exact ⟨t, (runCommand_of_decode hw s d).trans ht⟩
  | error r => exact ⟨_, runCommand_of_reject hw s d⟩

/-- Every next state of a command word: an error of another command than DECODE, an error of DECODE, which acts on the detached
state, or a value, given with STICKY as it was. -/
theorem runCommand_outcomes {s t : State} {w : Word} {d : Data} (h : runCommand w d s = .next t) :
    (decodeWord w ≠ .ok .decode ∧ ∃ e, e ≠ .ok ∧ t = (s.setWdata d).fail e) ∨
    (decodeWord w = .ok .decode ∧ ∃ e, e ≠ .ok ∧ t = (s.setWdata d).invalidate.fail e) ∨
    ∃ u v, t = State.complete u v ∧ u.sticky = s.sticky := by
  cases hw : decodeWord w with
  | error r =>
    rw [runCommand_of_reject hw] at h
    cases h
    exact .inl ⟨nofun, .badCommand, nofun, rfl⟩
  | ok i =>
    rw [runCommand_of_decode hw] at h
    by_cases hd : i = .decode
    · subst hd
      rcases execDecode_outcomes h with ⟨e, he, rfl⟩ | ⟨u, v, hu, rfl⟩
      · exact .inr (.inl ⟨rfl, e, he, rfl⟩)
      · obtain ⟨k, n, rfl, -⟩ := State.attach_ok hu
        exact .inr (.inr ⟨_, v, rfl, rfl⟩)
    · rcases exec_outcomes hd h with ⟨e, he, rfl⟩ | ⟨v, rfl⟩ | ⟨u, v, -, ⟨a, k, x, n, rfl, -⟩, rfl⟩
      · exact .inl ⟨fun heq => hd (Except.ok.inj heq), e, he, rfl⟩
      · exact .inr (.inr ⟨_, v, rfl, rfl⟩)
      · exact .inr (.inr ⟨_, v, rfl, rfl⟩)

/-- STICKY after an error gains the bit of its number: bit c-1 for code c (R306). -/
theorem State.fail_sticky_getLsbD (s : State) (e : ErrCode) (b : Nat) :
    (s.fail e).sticky.getLsbD b = (s.sticky.getLsbD b || decide (errNumber e = b + 1)) := by
  rw [State.fail_sticky, stickyBit_getLsbD, errCode_toNat]

/-- The response of a command carries the code LAST_ERR takes, and STICKY gains the bit of that code and no other (R307): code 0
has no bit. -/
theorem runCommand_status {s t : State} {w : Word} {d : Data} (h : runCommand w d s = .next t) :
    (∃ v, t.rsp = some { err := t.lastErr, data := v }) ∧
    ∀ b, t.sticky.getLsbD b = (s.sticky.getLsbD b || decide (errNumber t.lastErr = b + 1)) := by
  rcases runCommand_outcomes h with ⟨-, e, -, rfl⟩ | ⟨-, e, -, rfl⟩ | ⟨u, v, rfl, hu⟩
  · exact ⟨⟨0, rfl⟩, State.fail_sticky_getLsbD _ e⟩
  · exact ⟨⟨0, rfl⟩, State.fail_sticky_getLsbD _ e⟩
  · refine ⟨⟨v, rfl⟩, fun b => ?_⟩
    rw [State.complete_sticky, hu, State.complete_lastErr, errNumber, decide_eq_false (by omega), Bool.or_false]

/-! ## Illegal words -/

/-- A word of an opcode without operands has SEL = 0 and IDX = 0 (30_encoding R65). -/
theorem plainWord_ok {sel idx : Nat} {i j : Instr} (h : plainWord sel idx i = .ok j) : sel ≤ 0 ∧ idx ≤ 0 := by
  unfold plainWord at h
  split_ifs at h
  omega

/-- A word of an opcode that uses SEL has SEL in the range of its selectors and IDX = 0 (30_encoding R63, R65). -/
theorem selWord_ok {α : Type} {sel idx n : Nat} {pick : Nat → Option α} {mk : α → Instr} {j : Instr} (hs : sel < 8)
    (hp : ∀ m < 8, (pick m).isSome = true → m ≤ n) (h : selWord sel idx pick mk = .ok j) : sel ≤ n ∧ idx ≤ 0 := by
  unfold selWord at h
  split at h
  · cases h
  · rename_i x hx
    split_ifs at h
    exact ⟨hp sel hs (Option.isSome_of_eq_some hx), by omega⟩

/-- A word of an opcode that uses IDX has SEL = 0 and IDX in its range (30_encoding R64, R65). -/
theorem idxWord_ok {α : Type} {sel idx n : Nat} {pick : Nat → Option α} {mk : α → Instr} {j : Instr} (hi : idx < 64)
    (hp : ∀ m < 64, (pick m).isSome = true → m ≤ n) (h : idxWord sel idx pick mk = .ok j) : sel ≤ 0 ∧ idx ≤ n := by
  unfold idxWord at h
  split_ifs at h
  split at h
  · cases h
  · rename_i x hx
    exact ⟨by omega, hp idx hi (Option.isSome_of_eq_some hx)⟩

/-- Fields that decode lie in the ranges of a row of the opcode map (30_encoding R63, R64, R68): the cases are its opcodes in
order, taken together where their ranges are alike. -/
theorem decodeFields_inRange {opc sel idx : Nat} {i : Instr} (hs : sel < 8) (hi : idx < 64)
    (h : decodeFields opc sel idx = .ok i) :
    ∃ r ∈ opcodeMapLow ++ opcodeMapHigh, r.1 = opc ∧ sel ≤ r.2.1 ∧ idx ≤ r.2.2 := by
  unfold decodeFields at h
  split at h
  case h_5 | h_24 | h_25 | h_36 | h_37 => exact ⟨(_, 1, 0), by decide, rfl, selWord_ok hs (by decide) h⟩
  case h_12 | h_13 => exact ⟨(_, 2, 0), by decide, rfl, selWord_ok hs (by decide) h⟩
  case h_18 | h_19 | h_32 | h_33 => exact ⟨(_, 3, 0), by decide, rfl, selWord_ok hs (by decide) h⟩
  case h_20 | h_21 | h_28 | h_29 => exact ⟨(_, 4, 0), by decide, rfl, selWord_ok hs (by decide) h⟩
  case h_14 | h_15 => exact ⟨(_, 7, 0), by decide, rfl, selWord_ok hs (by decide) h⟩
  case h_9 => exact ⟨(_, 0, 10), by decide, rfl, idxWord_ok hi (by decide) h⟩
  case h_39 | h_40 => exact ⟨(_, 0, 63), by decide, rfl, idxWord_ok hi (by decide) h⟩
  case h_41 => cases h
  all_goals exact ⟨(_, 0, 0), by decide, rfl, plainWord_ok h⟩

/-- A word that decodes is legal. -/
theorem legalWord_of_decode {w : Word} {i : Instr} (h : decodeWord w = .ok i) : legalWord w = true := by
  unfold decodeWord at h
  split_ifs at h with hr
  obtain ⟨r, hmem, hopc, hsel, hidx⟩ := decodeFields_inRange (BitVec.isLt _) (BitVec.isLt _) h
  simp only [legalWord, hr, Bool.not_false, Bool.true_and, List.any_eq_true]
  exact ⟨r, hmem, by simp [hopc, hsel, hidx]⟩

/-! ## The statements -/

/-- Settles O6: a word that decodes lies in the opcode map, so an illegal one is rejected, and each reason answers alike. -/
theorem illegalWordRaisesBadCommand : Obligations.IllegalWordRaisesBadCommand := by
  intro s w d hl
  cases hw : decodeWord w with
  | ok i => exact absurd (hl.symm.trans (legalWord_of_decode hw)) Bool.false_ne_true
  | error r => exact runCommand_of_reject hw s d

/-- Settles O14: under the invariant no command faults, and the next state holds the one response of how it ended. -/
theorem everyCommandAnswersOnce : Obligations.EveryCommandAnswersOnce := by
  intro s w d hi
  obtain ⟨t, ht⟩ := runCommand_answers hi w d
  obtain ⟨v, hrsp⟩ := (runCommand_status ht).1
  exact ⟨t, _, ht, hrsp, (runCommand_keeps_inv_and_hlenCurrent hi ht).1⟩

/-- Settles O15: the commands that need a frame are those behind the frame check. -/
theorem noFrameRaisesNotDecoded : Obligations.NoFrameRaisesNotDecoded :=
  fun s _ hn hv => (exec_behindFrameCheck hn s).of_invalid hv

/-- Settles O16: an error acts on the state before the command, and DECODE's on that state with the frame detached. -/
theorem anErrorLeavesBufferAndRegisters : Obligations.AnErrorLeavesBufferAndRegisters := by
  intro s t w d h herr
  have hsticky := (runCommand_status h).2
  rcases runCommand_outcomes h with ⟨hw, e, -, rfl⟩ | ⟨hw, e, -, rfl⟩ | ⟨u, v, rfl, -⟩
  · exact ⟨rfl, ⟨rfl, rfl, rfl, rfl, rfl⟩, rfl, hsticky, fun _ => ⟨rfl, rfl, rfl, rfl, rfl⟩, fun hd => absurd hd hw⟩
  · exact ⟨rfl, ⟨rfl, rfl, rfl, rfl, rfl⟩, rfl, hsticky, fun hd => absurd hw hd, fun _ => ⟨rfl, rfl, rfl, rfl, rfl⟩⟩
  · exact absurd rfl herr

/-- Settles O17: a command only adds to STICKY, and the host's write of BUF leaves every register. -/
theorem statusBookkeeping : Obligations.StatusBookkeeping := by
  refine ⟨fun s t w d h => runCommand_status h, fun s t m b hm h hs ht => ?_⟩
  cases m with
  | command w d =>
    rw [(runCommand_status h).2 b, hs, Bool.true_or] at ht
    exact absurd ht.symm Bool.false_ne_true
  | writeBuf a x =>
    obtain rfl := State.hostWrite_next h
    exact absurd (ht.symm.trans hs) Bool.false_ne_true
  | reset => exact .inl rfl
  | resetDuring w d => exact .inr ⟨w, d, rfl⟩
  | selectInstance k => exact absurd rfl (hm k)

end Sys2Proof.Machine
end

section
/-! Reset and the stale HLEN of 70_reset_and_hazards: reset between commands (R400), reset that abandons a command (R401), and a
host write of BUF, which leaves HLEN behind the live layout until the next commit (R410). -/
namespace Sys2Proof.Machine
open Sys2Proof.Claims

/-! ## A command abandoned by reset -/

/-- The place of an address among those the abandoned command would have changed: the number of its free choice. -/
theorem idxOf_changedAddrs_inj {old new : Memory} {a b : Nat} (ha : Memory.byte old a ≠ Memory.byte new a)
    (h : (changedAddrs old new).idxOf a = (changedAddrs old new).idxOf b) : a = b :=
  (List.idxOf_inj ((mem_changedAddrs old new a).mpr ha)).mp h

/-- Each byte a torn write leaves is the new one or the old one, by the choice at its place; where the two agree the choice does
not show. -/
theorem State.tornBuf_byte (s : State) (hm : Memory.wf s.buf = true) (new : Memory) (a : Nat) :
    Memory.byte (s.tornBuf new) a =
      if Config.resetDraw (s.draws + (changedAddrs s.buf new).idxOf a) then Memory.byte new a else Memory.byte s.buf a := by
  rw [State.tornBuf, tearInto_byte _ _ _ (changedAddrs_nodup _ _) _ _ hm]
  by_cases ha : a ∈ changedAddrs s.buf new
  · simp only [ha, true_and]
  · have hsame : Memory.byte s.buf a = Memory.byte new a := not_not.mp ((mem_changedAddrs _ _ _).not.mp ha)
    rw [if_neg fun h => ha h.1, hsame, ite_self]

/-! ## A host write of BUF -/

/-- A host write inside BUF changes that byte alone and withdraws the response. -/
theorem State.hostWrite_inBuf (s : State) {a : Addr} (b : Byte) (ha : a.toNat < s.bufSize) :
    s.hostWrite a b = .next (s.setBuf (Memory.set s.buf a.toNat b)).idle :=
  if_pos ha

/-- A byte set inside BUF keeps the invariant. -/
theorem State.Inv.setBuf_byte {s : State} (hi : s.Inv) {a : Nat} (b : Byte) (ha : a < s.bufSize) :
    (s.setBuf (Memory.set s.buf a b)).Inv where
  size := hi.size
  regs := hi.regs
  others := hi.others
  canonical := Memory.set_wf _ _ _ hi.canonical
  inBuf := Memory.set_inBuf hi.inBuf ha

/-! ## What writes HLEN -/

/-- The commands that end with a commit are COMMIT and the writes. -/
theorem commits_iff (i : Instr) : commits i = true ↔ i = .commit ∨ isFieldWrite i = true := by
  cases i <;> simp [commits, isFieldWrite]

/-- A successful DECODE attaches a frame and commits its length, whatever HLEN was. -/
theorem exec_decode_ok_hlen {s t : State} (hi : s.Inv) (h : exec .decode s = .next t) (hok : t.lastErr = .ok) :
    t.hlen.toNat = t.headerLen := by
  rcases execDecode_outcomes h with ⟨e, he, rfl⟩ | ⟨u, v, hu, rfl⟩
  · exact absurd hok he
  · obtain ⟨hiu, hcu⟩ := State.attach_inv_and_hlenCurrent hu hi
    obtain ⟨k, n, rfl, -⟩ := State.attach_ok hu
    exact hiu.hlenCurrent_iff.mp hcu rfl

/-- A successful COMMIT or write leaves HLEN the live length, whatever it was. -/
theorem exec_commits_ok_hlen {s t : State} {i : Instr} (hi : s.Inv) (hc : commits i = true) (h : exec i s = .next t)
    (hok : t.lastErr = .ok) : t.hlen.toNat = t.headerLen := by
  rcases exec_write_outcomes hc h with ⟨e, he, rfl⟩ | ⟨u, v, hv, hu, rfl⟩
  · exact absurd hok he
  · obtain ⟨hiu, hcu⟩ := hu.inv_and_hlenCurrent hi hv
    exact hiu.hlenCurrent_iff.mp hcu (hu.window.2.1.trans hv)

/-- No command but DECODE, COMMIT and the writes changes HLEN (42_field_layout R128). -/
theorem exec_keeps_hlen {s t : State} {i : Instr} (hd : i ≠ .decode) (hc : commits i = false) (h : exec i s = .next t) :
    t.hlen = s.hlen := by
  rcases exec_read_outcomes hc hd h with ⟨e, -, rfl⟩ | ⟨v, rfl⟩
  · rfl
  · rfl

/-! ## The statements -/

/-- Settles O7: reset is the update `State.resetRegs`. -/
theorem resetClearsTheRegistersAndKeepsTheBuffer : Obligations.ResetClearsTheRegistersAndKeepsTheBuffer := fun s =>
  ⟨s.resetRegs, rfl, s.resetRegs_valid, s.resetRegs_kind, s.resetRegs_hlen, s.resetRegs_base, s.resetRegs_avail,
    s.resetRegs_lastErr, s.resetRegs_sticky, s.resetRegs_buf, s.resetRegs_rsp, s.resetRegs_others, s.resetRegs_bufSize⟩

/-- Settles O8: the choice of a changed address is the one at its place in the list of changed addresses. -/
theorem resetDuringACommandTearsItsBytes : Obligations.ResetDuringACommandTearsItsBytes := by
  intro s t w d hi h
  refine ⟨_, by rw [runMove, resetDuring, h], rfl, rfl, fun a => (changedAddrs s.buf t.buf).idxOf a, ?_, ?_⟩
  · exact fun a b ha _ => idxOf_changedAddrs_inj ha
  · exact s.tornBuf_byte hi.canonical t.buf

/-- Settles O9: the host write keeps the invariant and every register; after it HLEN changes by a commit alone. -/
theorem hlenIsStaleAfterAHostWrite : Obligations.HlenIsStaleAfterAHostWrite := by
  intro s a b hi hv ha
  have hit : (s.setBuf (Memory.set s.buf a.toNat b)).idle.Inv := (hi.setBuf_byte b ha).idle
  refine ⟨_, s.hostWrite_inBuf b ha, rfl, Memory.byte_set _ hi.canonical _ _, exec_hlenRd hv, exec_fsizeRd hit hv,
    exec_commit hit hv, fun i u hu => ?_⟩
  split_ifs with hw
  · intro hok
    rcases hw with rfl | hw
    · exact exec_decode_ok_hlen hit hu hok
    · exact exec_commits_ok_hlen hit ((commits_iff i).mpr hw) hu hok
  · obtain ⟨hd, hw⟩ := not_or.mp hw
    have hc : commits i = false := Bool.eq_false_iff.mpr ((commits_iff i).not.mpr hw)
    exact (exec_keeps_hlen hd hc hu).trans (State.idle_hlen _)

end Sys2Proof.Machine
end

section
/-! The encoding of 30_encoding: the fields of a composed word are those it was composed of, each operand type is numbered
one-to-one by its table of R63 or R64, and every row of the opcode map decodes throughout its ranges. -/
namespace Sys2Proof
open Sys2Proof.Machine

/-! ## The fields of a word -/

section
variable {opc sel idx : Nat} (ho : opc < 64) (hs : sel < 8) (hx : idx < 64)
include ho hs hx

/-- Fields within their widths fill the word below RSV (R61). -/
theorem wordOf_toNat : (wordOf opc sel idx).toNat = idx * 512 + sel * 64 + opc := by
  rw [wordOf, BitVec.toNat_ofNat, Nat.mod_eq_of_lt (by omega)]

theorem rsvOf_wordOf : rsvOf (wordOf opc sel idx) = false := by
  rw [rsvOf, ← BitVec.testBit_toNat, wordOf_toNat ho hs hx]
  exact Nat.testBit_lt_two_pow (by omega)

theorem opcOf_wordOf : opcOf (wordOf opc sel idx) = opc := by
  rw [opcOf, BitVec.extractLsb'_toNat, wordOf_toNat ho hs hx, Nat.shiftRight_eq_div_pow]
  omega

theorem selOf_wordOf : selOf (wordOf opc sel idx) = sel := by
  rw [selOf, BitVec.extractLsb'_toNat, wordOf_toNat ho hs hx, Nat.shiftRight_eq_div_pow]
  omega

theorem idxOf_wordOf : idxOf (wordOf opc sel idx) = idx := by
  rw [idxOf, BitVec.extractLsb'_toNat, wordOf_toNat ho hs hx, Nat.shiftRight_eq_div_pow]
  omega

/-- A composed word decodes as its fields do. -/
theorem decodeWord_wordOf : decodeWord (wordOf opc sel idx) = decodeFields opc sel idx := by
  rw [decodeWord, rsvOf_wordOf ho hs hx, opcOf_wordOf ho hs hx, selOf_wordOf ho hs hx, idxOf_wordOf ho hs hx]
  rfl

end

/-- A word with RSV = 0 is the one composed of its fields. -/
theorem wordOf_fields {w : Word} (hr : rsvOf w = false) : wordOf (opcOf w) (selOf w) (idxOf w) = w := by
  have hlt : w.toNat < 2 ^ 15 := by
    have hw := w.isLt
    rw [rsvOf, ← BitVec.testBit_toNat, Nat.testBit_eq_decide_div_mod_eq, decide_eq_false_iff_not] at hr
    omega
  apply BitVec.eq_of_toNat_eq
  rw [wordOf_toNat (BitVec.isLt _) (BitVec.isLt _) (BitVec.isLt _)]
  simp only [opcOf, selOf, idxOf, BitVec.extractLsb'_toNat, Nat.shiftRight_eq_div_pow]
  omega

/-! ## The tables of operands -/

/-- The encoder's table `num` and the decoder's table `pick` number the same operands, one-to-one, below `bound`. -/
structure Numbering {α : Type} (pick : Nat → Option α) (num : α → Nat) (bound : Nat) : Prop where
  /-- The decoder reads back the encoder's number, which fits the word's field. -/
  pick_num : ∀ x, num x < bound ∧ pick (num x) = some x
  /-- A number the decoder reads is the encoder's number of what it reads. -/
  num_of_pick : ∀ n < bound, ∀ x ∈ pick n, num x = n

theorem winReg_numbering : Numbering winRegOf WinReg.sel 8 := ⟨fun x => by cases x <;> decide, by decide⟩
theorem fcField_numbering : Numbering fcFieldOf FcField.sel 8 := ⟨fun x => by cases x <;> decide, by decide⟩
theorem flag_numbering : Numbering flagOf Flag.sel 8 := ⟨fun x => by cases x <;> decide, by decide⟩
theorem slot_numbering : Numbering slotOf Slot.sel 8 := ⟨fun x => by cases x <;> decide, by decide⟩
theorem role_numbering : Numbering roleOf Role.sel 8 := ⟨fun x => by cases x <;> decide, by decide⟩
theorem seqField_numbering : Numbering seqFieldOf SeqField.sel 8 := ⟨fun x => by cases x <;> decide, by decide⟩
theorem qosField_numbering : Numbering qosFieldOf QosField.sel 8 := ⟨fun x => by cases x <;> decide, by decide⟩
theorem bacField_numbering : Numbering bacFieldOf BacField.sel 8 := ⟨fun x => by cases x <;> decide, by decide⟩

theorem field_numbering : Numbering fieldOf Field.id 64 where
  pick_num
    | .fixed f => by cases f <;> decide
    | .bmp => by decide
  num_of_pick := by decide

/-! ## From the instruction to its word and back -/

theorem decode_plain {opc : Nat} {i : Instr} (ho : opc < 64) (hd : decodeFields opc 0 0 = plainWord 0 0 i) :
    decodeWord (wordOf opc 0 0) = .ok i :=
  (decodeWord_wordOf ho (by decide) (by decide)).trans hd

section
variable {α : Type} {pick : Nat → Option α} {num : α → Nat} {opc : Nat} {mk : α → Instr} (ho : opc < 64)
include ho

theorem decode_sel (hn : Numbering pick num 8) (x : α)
    (hd : decodeFields opc (num x) 0 = selWord (num x) 0 pick mk) : decodeWord (wordOf opc (num x) 0) = .ok (mk x) := by
  obtain ⟨hlt, hp⟩ := hn.pick_num x
  rw [decodeWord_wordOf ho hlt (by decide), hd, selWord, hp]
  rfl

theorem decode_idx {x : α} (hlt : num x < 64) (hp : pick (num x) = some x)
    (hd : decodeFields opc 0 (num x) = idxWord 0 (num x) pick mk) : decodeWord (wordOf opc 0 (num x)) = .ok (mk x) := by
  rw [decodeWord_wordOf ho (by decide) hlt, hd, idxWord, hp]
  rfl

end

/-- Settles O1: the fields of the encoder's word are the opcode and the operand's number, which the decoder's table reads back. -/
theorem encodeThenDecodeIsIdentity : Obligations.EncodeThenDecodeIsIdentity := by
  intro i hwf
  cases i
  case winRd r => exact decode_sel (by decide) winReg_numbering r rfl
  case fcfRd f | fcfWr f => exact decode_sel (by decide) fcField_numbering f rfl
  case flagRd f | flagWr f => exact decode_sel (by decide) flag_numbering f rfl
  case addrRd a | addrWr a => exact decode_sel (by decide) slot_numbering a rfl
  case roleRd r | roleWr r => exact decode_sel (by decide) role_numbering r rfl
  case scfRd f | scfWr f | sscfRd f | sscfWr f => exact decode_sel (by decide) seqField_numbering f rfl
  case qsfRd f | qsfWr f => exact decode_sel (by decide) qosField_numbering f rfl
  case bacfRd f | bacfWr f => exact decode_sel (by decide) bacField_numbering f rfl
  case offsetRd f =>
    obtain ⟨hlt, hp⟩ := field_numbering.pick_num f
    exact decode_idx (by decide) hlt hp rfl
  case bmpRd n | bmpWr n => exact decode_idx (num := id) (by decide) (of_decide_eq_true hwf) (if_pos hwf) rfl
  all_goals exact decode_plain (by decide) rfl

/-! ## From the word to its instruction and back -/

/-- Fields that decode to `i` are those of its encoding, and `i` is an instruction a word can hold. -/
def Reencodes (opc sel idx : Nat) (i : Instr) : Prop := encode i = wordOf opc sel idx ∧ i.wellFormed = true

theorem Reencodes.of_plainWord {opc sel idx : Nat} {i j : Instr} (h : plainWord sel idx i = .ok j)
    (hi : Reencodes opc 0 0 i) : Reencodes opc sel idx j := by
  unfold plainWord at h
  split_ifs at h with hs hx
  obtain rfl := not_not.mp hs
  obtain rfl := not_not.mp hx
  exact Except.ok.inj h ▸ hi

section
variable {α : Type} {pick : Nat → Option α} {num : α → Nat} {opc sel idx : Nat} {mk : α → Instr} {j : Instr}

theorem Reencodes.of_selWord (hn : Numbering pick num 8) (hlt : sel < 8) (h : selWord sel idx pick mk = .ok j)
    (hi : ∀ x, Reencodes opc (num x) 0 (mk x)) : Reencodes opc sel idx j := by
  unfold selWord at h
  split at h
  · cases h
  · rename_i x hp
    split_ifs at h with hx
    obtain rfl := not_not.mp hx
    obtain rfl := hn.num_of_pick sel hlt x hp
    exact Except.ok.inj h ▸ hi x

theorem Reencodes.of_idxWord (h : idxWord sel idx pick mk = .ok j)
    (hi : ∀ x, pick idx = some x → Reencodes opc 0 idx (mk x)) : Reencodes opc sel idx j := by
  unfold idxWord at h
  split_ifs at h with hs
  obtain rfl := not_not.mp hs
  split at h
  · cases h
  · rename_i x hp
    exact Except.ok.inj h ▸ hi x hp

end

/-- A bitmap index is its own number, if IDX can hold it (R64). -/
theorem bitmapIndexOf_some {n x : Nat} (h : bitmapIndexOf n = some x) : n = x ∧ bitmapIndexOk x = true := by
  unfold bitmapIndexOf at h
  split_ifs at h with hn
  obtain rfl := Option.some.inj h
  exact ⟨rfl, hn⟩

/-- The cases are the opcodes of the map in order, taken together where they share a table of operands. -/
theorem decodeFields_reencodes {opc sel idx : Nat} {i : Instr} (hs : sel < 8) (hx : idx < 64)
    (h : decodeFields opc sel idx = .ok i) : Reencodes opc sel idx i := by
  unfold decodeFields at h
  split at h
  case h_5 => exact .of_selWord winReg_numbering hs h fun _ => ⟨rfl, rfl⟩
  case h_12 | h_13 => exact .of_selWord fcField_numbering hs h fun _ => ⟨rfl, rfl⟩
  case h_14 | h_15 => exact .of_selWord flag_numbering hs h fun _ => ⟨rfl, rfl⟩
  case h_18 | h_19 => exact .of_selWord slot_numbering hs h fun _ => ⟨rfl, rfl⟩
  case h_20 | h_21 => exact .of_selWord role_numbering hs h fun _ => ⟨rfl, rfl⟩
  case h_24 | h_25 | h_36 | h_37 => exact .of_selWord seqField_numbering hs h fun _ => ⟨rfl, rfl⟩
  case h_28 | h_29 => exact .of_selWord qosField_numbering hs h fun _ => ⟨rfl, rfl⟩
  case h_32 | h_33 => exact .of_selWord bacField_numbering hs h fun _ => ⟨rfl, rfl⟩
  case h_9 => exact .of_idxWord h fun x hp => ⟨congrArg (wordOf _ 0) (field_numbering.num_of_pick _ hx x hp), rfl⟩
  case h_39 | h_40 =>
    refine .of_idxWord h fun x hp => ?_
    obtain ⟨rfl, hok⟩ := bitmapIndexOf_some hp
    exact ⟨rfl, hok⟩
  case h_41 => cases h
  all_goals exact .of_plainWord h ⟨rfl, rfl⟩

/-- Settles O2: a word that decodes has RSV = 0, so it is composed of its fields, and those are the encoder's. -/
theorem decodedWordReencodes : Obligations.DecodedWordReencodes := by
  intro w i h
  unfold decodeWord at h
  split_ifs at h with hr
  obtain ⟨henc, hwf⟩ := decodeFields_reencodes (BitVec.isLt _) (BitVec.isLt _) h
  exact ⟨henc.trans (wordOf_fields (Bool.eq_false_iff.mpr hr)), hwf⟩

/-! ## Legal words -/

/-- Every row of the opcode map decodes throughout its ranges: a check of the finite map of R68 with R63 and R64. -/
theorem decodeFields_of_inRange : ∀ r ∈ opcodeMapLow ++ opcodeMapHigh, ∀ sel ≤ r.2.1, ∀ idx ≤ r.2.2,
    (decodeFields r.1 sel idx).isOk = true := by
  decide

/-- A legal word decodes. -/
theorem decode_of_legalWord {w : Word} (h : legalWord w = true) : ∃ i, decodeWord w = .ok i := by
  simp only [legalWord, Bool.and_eq_true, Bool.not_eq_true', List.any_eq_true, beq_iff_eq, decide_eq_true_eq] at h
  obtain ⟨hr, r, hmem, ⟨hopc, hsel⟩, hidx⟩ := h
  have hok := decodeFields_of_inRange r hmem _ hsel _ hidx
  rw [decodeWord, hr, ← hopc]
  cases hd : decodeFields r.1 (selOf w) (idxOf w) with
  | ok i => exact ⟨i, rfl⟩
  | error e => rw [hd] at hok; exact Bool.noConfusion hok

/-- Settles O4: the ranges a decoded word lies in are those of its row, and each row decodes throughout its ranges. -/
theorem legalWordsAreThoseOfTheMap : Obligations.LegalWordsAreThoseOfTheMap :=
  fun _ => ⟨fun ⟨_, h⟩ => legalWord_of_decode h, decode_of_legalWord⟩

/-- Settles O3: each of the eight words is the encoding of the instruction the spec gives it. -/
theorem spelledOutWordsDecode : Obligations.SpelledOutWordsDecode :=
  ⟨encodeThenDecodeIsIdentity (.flagWr .toDs) rfl, encodeThenDecodeIsIdentity (.addrRd .a4) rfl,
    encodeThenDecodeIsIdentity (.bmpRd 7) rfl, encodeThenDecodeIsIdentity (.offsetRd (.fixed .qos)) rfl,
    encodeThenDecodeIsIdentity .decode rfl, encodeThenDecodeIsIdentity (.winRd .avail) rfl,
    encodeThenDecodeIsIdentity (.scfRd .seq) rfl, encodeThenDecodeIsIdentity (.bacfWr .compr) rfl⟩

end Sys2Proof
end

section
/-! The step and what every step keeps (10_state section 3): the oldest of the host's moves is what a step runs, no command
touches its surroundings, and each kind of move, a torn write and a change of instances included, keeps the invariant. -/
namespace Sys2Proof.Machine
open Sys2Proof.Claims

/-! ## The oldest move -/

theorem step_cons {s : State} {m : HostMove} {rest : List HostMove} (h : s.host = m :: rest) :
    step s = runMove m (s.setHost rest) := by
  rw [step, nextMove, h]

theorem step_nil {s : State} (h : s.host = []) : step s = .next s.idle := by
  rw [step, nextMove, h]

/-- Settles O5: the move of a command whose word decodes runs that command. -/
theorem stepRunsTheDecodedCommand : Obligations.StepRunsTheDecodedCommand :=
  ⟨fun _ _ d _ _ h hd => (step_cons h).trans (runCommand_of_decode hd _ d), fun _ _ _ h => step_cons h, fun _ h => step_nil h⟩

/-! ## What no command touches -/

/-- A store and commit changes BUF and HLEN alone. -/
theorem State.StoreOf.surroundings {s u : State} (hu : s.StoreOf u) : sameSurroundings s u := by
  obtain ⟨a, k, v, n, rfl, -⟩ := hu
  exact ⟨rfl, rfl, rfl, rfl, rfl⟩

theorem exec_keeps_surroundings {s t : State} {i : Instr} (h : exec i s = .next t) : sameSurroundings s t := by
  by_cases hd : i = .decode
  · subst hd
    rcases execDecode_outcomes h with ⟨e, -, rfl⟩ | ⟨u, v, hu, rfl⟩
    · exact ⟨rfl, rfl, rfl, rfl, rfl⟩
    · obtain ⟨k, n, rfl, -⟩ := State.attach_ok hu
      exact ⟨rfl, rfl, rfl, rfl, rfl⟩
  · rcases exec_outcomes hd h with ⟨e, -, rfl⟩ | ⟨v, rfl⟩ | ⟨u, v, -, hu, rfl⟩
    · exact ⟨rfl, rfl, rfl, rfl, rfl⟩
    · exact ⟨rfl, rfl, rfl, rfl, rfl⟩
    · exact hu.surroundings

theorem runCommand_keeps_surroundings {s t : State} {w : Word} {d : Data} (h : runCommand w d s = .next t) :
    sameSurroundings (s.setWdata d) t := by
  cases hw : decodeWord w with
  | ok i =>
    rw [runCommand_of_decode hw] at h
    exact exec_keeps_surroundings h
  | error r =>
    rw [runCommand_of_reject hw] at h
    cases h
    exact ⟨rfl, rfl, rfl, rfl, rfl⟩

/-! ## The moves that are no command -/

/-- A byte that two memories hold differently is listed in one of them, so it lies where both of them do. -/
theorem lt_of_mem_changedAddrs {old new : Memory} {n : Nat} (ho : ∀ c ∈ old, c.1 < n) (hn : ∀ c ∈ new, c.1 < n) :
    ∀ a ∈ changedAddrs old new, a < n := by
  intro a ha
  rw [mem_changedAddrs] at ha
  by_cases hb : Memory.byte old a = Config.unlistedByte
  · obtain ⟨c, hc, rfl⟩ := Memory.listed (hb ▸ ha.symm)
    exact hn c hc
  · obtain ⟨c, hc, rfl⟩ := Memory.listed hb
    exact ho c hc

/-- A host write lands in BUF or stops with a fault (20_memory R40). -/
theorem State.hostWrite_lt {s t : State} {a : Addr} {b : Byte} (h : s.hostWrite a b = .next t) : a.toNat < s.bufSize := by
  unfold State.hostWrite at h
  split_ifs at h with ha
  exact ha

theorem hostWrite_keeps_inv {s t : State} {a : Addr} {b : Byte} (hi : s.Inv) (h : s.hostWrite a b = .next t) : t.Inv := by
  obtain rfl := State.hostWrite_next h
  exact (hi.setBuf_byte b (State.hostWrite_lt h)).idle

/-- A command abandoned by reset leaves a canonical BUF: each byte it tears is one the command would have changed, in BUF. -/
theorem resetDuring_keeps_inv {s t : State} {w : Word} {d : Data} (hi : s.Inv) (h : resetDuring w d s = .next t) :
    t.Inv := by
  unfold resetDuring at h
  split at h
  · rename_i u hu
    have hiu := (runCommand_keeps_inv_and_hlenCurrent hi hu).1
    obtain ⟨-, hsize, -⟩ := runCommand_keeps_surroundings hu
    cases h
    exact {
      size := hi.size
      regs := Regs.reset_ok _
      others := hi.others
      canonical := tearInto_wf _ _ _ _ _ hi.canonical
      inBuf := tearInto_inBuf _ _ _ _ (lt_of_mem_changedAddrs hi.inBuf fun c hc => hsize ▸ hiu.inBuf c hc) _ _ hi.inBuf }
  · cases h
  · cases h

/-- The registers at a place of the list come forward, and those driven so far take that place (60_exceptions R317). -/
theorem State.selectInstance_eq {s : State} {k : Nat} {r : Regs} (h : s.others[k]? = some r) :
    s.selectInstance k = .next { s with toRegs := r, others := s.others.set k s.toRegs, rsp := none } := by
  rw [State.selectInstance, h]

theorem selectInstance_keeps_inv {s t : State} {k : Nat} (hi : s.Inv) (h : s.selectInstance k = .next t) : t.Inv := by
  cases hk : s.others[k]? with
  | none => simp [State.selectInstance, hk] at h
  | some r =>
    rw [State.selectInstance_eq hk] at h
    cases h
    exact {
      size := hi.size
      regs := hi.others r (List.mem_of_getElem? hk)
      others := fun q hq => (List.mem_or_eq_of_mem_set hq).elim (hi.others q) (fun hq => hq ▸ hi.regs)
      canonical := hi.canonical
      inBuf := hi.inBuf }

/-! ## The statements -/

theorem runMove_keeps_inv {s t : State} {m : HostMove} (hi : s.Inv) (h : runMove m s = .next t) : t.Inv := by
  cases m with
  | command w d => exact (runCommand_keeps_inv_and_hlenCurrent hi h).1
  | writeBuf a b => exact hostWrite_keeps_inv hi h
  | reset =>
    cases h
    exact hi.resetRegs
  | resetDuring w d => exact resetDuring_keeps_inv hi h
  | selectInstance k => exact selectInstance_keeps_inv hi h

/-- Settles O11: each move of the host keeps the invariant, and so does waiting for one. -/
theorem everyStepKeepsTheInvariant : Obligations.EveryStepKeepsTheInvariant := by
  intro s t hi h
  cases hm : s.host with
  | nil =>
    rw [step_nil hm] at h
    cases h
    exact hi.idle
  | cons m rest =>
    rw [step_cons hm] at h
    exact runMove_keeps_inv (hi.setHost rest) h

/-- The reset state holds reset registers everywhere and an empty BUF. -/
theorem State.resetWith_inv {b : Nat} (n : Nat) (hmin : 2 ≤ b) (hmax : b ≤ 2 ^ 24) : (State.resetWith b n).Inv where
  size := ⟨hmin, hmax⟩
  regs := Regs.reset_ok b
  others _ hr := List.eq_of_mem_replicate hr ▸ Regs.reset_ok b
  canonical := State.resetWith_buf_wf b n
  inBuf _ hc := absurd hc List.not_mem_nil

/-- Settles O12: `State.reset` is the reset state of one choice of the parameters. -/
theorem resetMeetsTheInvariant : Obligations.ResetMeetsTheInvariant :=
  ⟨fun _ n hmin hmax => State.resetWith_inv n hmin hmax, State.resetWith_inv 0 (by decide) (by decide)⟩

/-- Settles O10: turning to a place exchanges its registers with those driven, and doing so twice puts each back. -/
theorem instancesKeepTheirOwnRegisters : Obligations.InstancesKeepTheirOwnRegisters := by
  intro s k r hr
  obtain ⟨hlt, hget⟩ := List.getElem?_eq_some_iff.mp hr
  have hback : (s.others.set k s.toRegs)[k]? = some s.toRegs := List.getElem?_set_self hlt
  refine ⟨_, State.selectInstance_eq hr, rfl, hback, rfl, fun j hj => List.getElem?_set_ne hj.symm,
    _, State.selectInstance_eq hback, rfl, ?_⟩
  change (s.others.set k s.toRegs).set k r = s.others
  rw [List.set_set, ← hget, List.set_getElem_self]

end Sys2Proof.Machine
end

section
/-! The frames of the commands (20_memory section 3, 41_frame_control section 3): a command that is no field write leaves BUF, a
field write changes the span of its own field alone, and what a whole-field write stored is what the read of that field
answers. -/
namespace Sys2Proof.Machine
open Sys2Proof.Claims

/-! ## Commands that store nothing -/

/-- COMMIT writes HLEN, LAST_ERR and the response alone (42_field_layout R132). -/
theorem execCommit_keeps_buf {s t : State} (h : execCommit s = .next t) : t.buf = s.buf := by
  rcases finish_next h with ⟨u, v, hu, rfl⟩ | ⟨e, -, rfl⟩
  · obtain ⟨-, hu⟩ := State.framed_ok hu
    cases hc : s.commit with
    | error e =>
      rw [hc] at hu
      cases hu
    | ok c =>
      rw [hc] at hu
      cases hu
      obtain ⟨n, -, rfl⟩ := State.commit_ok hc
      rfl
  · rfl

theorem execDecode_keeps_buf {s t : State} (h : execDecode s = .next t) : t.buf = s.buf := by
  rcases execDecode_outcomes h with ⟨e, -, rfl⟩ | ⟨u, v, hu, rfl⟩
  · rfl
  · obtain ⟨k, n, rfl, -⟩ := State.attach_ok hu
    rfl

/-- The commands that neither attach a frame nor commit are the reads of R68. -/
theorem commits_of_isRead {i : Instr} (h : isRead i = true) : i ≠ .decode ∧ commits i = false := by
  simp only [isRead, Bool.and_eq_true, Bool.not_eq_true', bne_iff_ne] at h
  obtain ⟨⟨hw, hd⟩, hc⟩ := h
  refine ⟨hd, Bool.eq_false_iff.mpr fun hcom => ?_⟩
  rcases (commits_iff i).mp hcom with rfl | hw'
  · exact hc rfl
  · exact Bool.false_ne_true (hw.symm.trans hw')

theorem State.ReadOutcomes.registers {s t : State} (h : s.ReadOutcomes t) : t.buf = s.buf ∧ sameRegisters s t := by
  rcases h with ⟨e, -, rfl⟩ | ⟨v, rfl⟩
  · exact ⟨rfl, rfl, rfl, rfl, rfl, rfl⟩
  · exact ⟨rfl, rfl, rfl, rfl, rfl, rfl⟩

/-- A command that is no field write is DECODE, COMMIT or a read, and none of them stores to BUF. -/
theorem exec_keeps_buf {s t : State} {i : Instr} (hw : isFieldWrite i = false) (h : exec i s = .next t) : t.buf = s.buf := by
  by_cases hd : i = .decode
  · subst hd
    exact execDecode_keeps_buf h
  by_cases hc : i = .commit
  · subst hc
    exact execCommit_keeps_buf h
  have hr : isRead i = true := by simp [isRead, hw, hd, hc]
  exact (exec_read_outcomes (commits_of_isRead hr).2 hd h).registers.1

/-- Settles O19: a read ends in an error or a value, both of which leave the registers named; COMMIT keeps the window as every
command but DECODE does. -/
theorem readsChangeNothingButStatus : Obligations.ReadsChangeNothingButStatus := by
  intro s t i hw h
  refine ⟨fun a => congrArg (Memory.byte · a) (exec_keeps_buf hw h), exec_keeps_surroundings h, fun hr => ?_, fun hc => ?_⟩
  · obtain ⟨hd, hc⟩ := commits_of_isRead hr
    exact (exec_read_outcomes hc hd h).registers.2
  · subst hc
    obtain ⟨hkind, hvalid, hbase, havail⟩ := exec_keeps_window (by decide) h
    exact ⟨hvalid, hkind, hbase, havail⟩

/-! ## The span of a write -/

/-- `t` holds the BUF of `s` after a store in the span computed. -/
def State.StoredIn (s t : State) (span : Except Stop (Nat × Nat)) : Prop :=
  ∃ a n v, span = .ok (a, n) ∧ t.buf = memWrite s.buf a n v

/-- A write that ends in a next state left BUF as it was, or stored in its span. -/
theorem finishWrite_storedIn {s t : State} {r : Except Stop State} {span : Except Stop (Nat × Nat)}
    (h : finishWrite s (s.framed r) = .next t) (hr : ∀ u, r = .ok u → s.StoredIn u span) :
    t.buf = s.buf ∨ s.StoredIn t span := by
  rcases finishWrite_next h with ⟨u, hu, rfl⟩ | ⟨e, -, rfl⟩
  · exact .inr (hr u (State.framed_ok hu).2)
  · exact .inl rfl

theorem State.fieldWr_storedIn {s u : State} {f : FixedField} {n : Nat} {v : Data} (hw : FixedField.width f = n)
    (h : s.fieldWr f v = .ok u) : s.StoredIn u ((s.locate f).map fun a => (a, n)) := by
  obtain ⟨a, m, hl, rfl⟩ := State.fieldWr_ok h
  subst hw
  exact ⟨a, _, v, by rw [hl]; rfl, rfl⟩

/-- A sub-field write is a write of the whole word (41_frame_control R109). -/
theorem State.subWr_ok {s u : State} {f : FixedField} {b : SubField} {x : Data} (h : s.subWr f b x = .ok u) :
    ∃ v, s.fieldWr f v = .ok u := by
  unfold State.subWr at h
  cases hr : s.fieldRd f with
  | error e =>
    rw [hr] at h
    cases h
  | ok v =>
    rw [hr] at h
    exact ⟨_, h⟩

theorem State.subWr_storedIn {s u : State} {f : FixedField} {n : Nat} {b : SubField} {x : Data}
    (hw : FixedField.width f = n) (h : s.subWr f b x = .ok u) : s.StoredIn u ((s.locate f).map fun a => (a, n)) := by
  obtain ⟨v, hv⟩ := State.subWr_ok h
  exact State.fieldWr_storedIn hw hv

/-- A role is played by an address slot, six bytes wide (43_dispatch_addresses R151). -/
theorem State.roleField_width {s : State} {r : Role} {f : FixedField} (h : s.roleField r = .ok f) :
    FixedField.width f = 6 := by
  unfold State.roleField at h
  cases hc : s.fc with
  | error e =>
    rw [hc] at h
    cases h
  | ok w =>
    simp only [hc, Bind.bind, Except.bind] at h
    split at h
    · cases h
      exact Slot.field_width _
    · cases h

theorem execRoleWr_storedIn {s t : State} {r : Role} (h : execRoleWr r s = .next t) :
    t.buf = s.buf ∨ s.StoredIn t (storeSpan (.roleWr r) s) := by
  refine finishWrite_storedIn h fun u hu => ?_
  rw [storeSpan]
  cases hf : s.roleField r with
  | error e =>
    rw [hf] at hu
    cases hu
  | ok f =>
    rw [hf] at hu
    exact State.fieldWr_storedIn (State.roleField_width hf) hu

theorem execBmpWr_storedIn {s t : State} {i : Nat} (h : execBmpWr i s = .next t) :
    t.buf = s.buf ∨ s.StoredIn t (storeSpan (.bmpWr i) s) := by
  refine finishWrite_storedIn h fun u hu => ?_
  rw [storeSpan]
  cases hl : s.locateBitmap i with
  | error e =>
    rw [hl] at hu
    cases hu
  | ok a =>
    rw [hl] at hu
    obtain ⟨n, -, rfl⟩ := State.commit_ok hu
    exact ⟨a, 1, s.wdata, rfl, rfl⟩

theorem exec_storedIn {s t : State} {i : Instr} (hw : isFieldWrite i = true) (h : exec i s = .next t) :
    t.buf = s.buf ∨ s.StoredIn t (storeSpan i s) := by
  cases i
  case roleWr r => exact execRoleWr_storedIn h
  case bmpWr i => exact execBmpWr_storedIn h
  case addrWr a => exact finishWrite_storedIn h fun _ => State.fieldWr_storedIn (Slot.field_width a)
  case fcWr | durWr | scWr | qosWr | bacWr | sscWr => exact finishWrite_storedIn h fun _ => State.fieldWr_storedIn rfl
  case fcfWr | flagWr | scfWr | qsfWr | bacfWr | sscfWr => exact finishWrite_storedIn h fun _ => State.subWr_storedIn rfl
  all_goals exact Bool.noConfusion hw

/-- Settles O20: BUF after a write is as before or holds a store in the write's span; without a span there is no store. -/
theorem writesTouchOnlyTheirField : Obligations.WritesTouchOnlyTheirField := by
  intro s t i hi hw h
  have hd : i ≠ .decode := by
    rintro rfl
    exact Bool.noConfusion hw
  obtain ⟨hkind, hvalid, hbase, havail⟩ := exec_keeps_window hd h
  refine ⟨hvalid, hkind, hbase, havail, exec_keeps_surroundings h, fun a n hspan x hx => ?_, fun e hspan x => ?_⟩
  · rcases exec_storedIn hw h with hbuf | ⟨a', n', v, hspan', hbuf⟩
    · rw [hbuf]
    · rw [hspan] at hspan'
      cases hspan'
      rw [hbuf, memWrite_byte_outside _ hi.canonical _ _ _ _ hx]
  · rcases exec_storedIn hw h with hbuf | ⟨a', n', v, hspan', -⟩
    · rw [hbuf]
    · rw [hspan] at hspan'
      cases hspan'

/-! ## Reading back a written field -/

/-- Every field but Frame Control lies past it (42_field_layout R121). -/
theorem fieldPlace_past_fc {s : State} {f : FixedField} {o : Nat} (hf : f ≠ .fc) (h : fieldPlace s (.fixed f) = .ok o) :
    2 ≤ o := by
  by_cases hb : f = .bac
  · subst hb
    dsimp only [fieldPlace] at h
    split_ifs at h
    cases h
    decide
  · exact (fieldPlace_clear hf hb h).1

/-- A store at the place of a field leaves the field there: only a store of Frame Control changes the flags that place depends
on, and Frame Control itself never moves. -/
theorem fieldPlace_stored {s : State} (hi : s.Inv) {f : FixedField} {o : Nat} (h : fieldPlace s (.fixed f) = .ok o)
    (n : Nat) (v : Data) : fieldPlace (s.stored o n v) (.fixed f) = .ok o := by
  by_cases hf : f = .fc
  · subst hf
    exact h
  · have hfc : (s.stored o n v).fcWord = s.fcWord := State.fcWord_store hi o n v (fieldPlace_past_fc hf h)
    have hsame := fieldPlace_congr (s := s.stored o n v) (u := s) rfl (by rw [hfc]) (by rw [hfc]) (.fixed f)
    exact hsame.trans h

/-- A field write that succeeds has a place in the window to store to. -/
theorem State.fieldWr_place {s u : State} (hi : s.Inv) (hv : s.valid = true) {f : FixedField} {v : Data}
    (h : s.fieldWr f v = .ok u) : ∃ o, fieldPlace s (.fixed f) = .ok o ∧ o + FixedField.width f ≤ s.avail.toNat ∧
      u = s.stored o (FixedField.width f) v := by
  cases hl : layoutOf s.kind s.fourAddress (.fixed f) with
  | none =>
    rw [State.fieldWr_none hi hv hl] at h
    cases h
  | some o =>
    rw [State.fieldWr_some hi hv hl] at h
    split_ifs at h with hr
    exact ⟨o, (fieldPlace_eq_ok (hi.regs.attached hv).1).mpr hl, by omega, (Except.ok.inj h).symm⟩

/-- MemRead after MemWrite of the same n bytes, as words of the bus. -/
theorem memRead_memWrite_eq (m : Memory) (hm : Memory.wf m = true) (a : Nat) (n : Nat) (v : Data) :
    memRead (memWrite m a n v) a n = BitVec.ofNat 48 (v.toNat % 2 ^ (8 * n)) := by
  rw [memRead, byteSum_memWrite m hm]

/-- A read of the span just stored answers the value stored. -/
theorem readOut_stored {s : State} (hi : s.Inv) {o n : Nat} (hfits : o + n ≤ s.avail.toNat) (v x : Data) :
    readOut ((s.stored o n v).complete x) o n =
      ((s.stored o n v).complete x).complete (BitVec.ofNat 48 (v.toNat % 2 ^ (8 * n))) :=
  (if_neg (Nat.not_lt.mpr hfits)).trans (congrArg _ (memRead_memWrite_eq _ hi.canonical _ n v))

/-- A whole-field write that succeeds is read back: the field is where it was, its bytes are those stored, and the invariant
holds after the write as before. -/
theorem fieldWr_readsBack {s t : State} (hi : s.Inv) (hit : t.Inv) {f : FixedField}
    (h : finishWrite s (s.framed (s.fieldWr f s.wdata)) = .next t) (hok : t.lastErr = .ok) :
    finishRead t (t.framed (t.fieldRd f)) =
      .next (t.complete (BitVec.ofNat 48 (s.wdata.toNat % 2 ^ (8 * FixedField.width f)))) := by
  rcases finishWrite_next h with ⟨u, hu, rfl⟩ | ⟨e, he, rfl⟩
  · obtain ⟨hv, hu⟩ := State.framed_ok hu
    obtain ⟨o, hplace, hfits, rfl⟩ := State.fieldWr_place hi hv hu
    have hstored := fieldPlace_stored hi hplace (FixedField.width f) s.wdata
    rw [State.finishRead_fieldRd_ok hit hv hstored, readOut_stored hi hfits]
  · obtain rfl : e = .ok := hok
    exact absurd he (s.framed_raises (s.fieldWr_raises f _))

/-- Settles O22: each pair is the write and the read of one field, and its number of bits is eight for each byte of the field. -/
theorem writtenFieldReadsBack : Obligations.WrittenFieldReadsBack := by
  intro s t w r bits hp hi h hok
  have hit := (exec_keeps_inv_and_hlenCurrent hi h).1
  simp only [fieldPair, List.mem_cons, Prod.mk.injEq, List.not_mem_nil, or_false] at hp
  rcases hp with ⟨rfl, rfl, rfl⟩ | ⟨rfl, rfl, rfl⟩ | ⟨rfl, rfl, rfl⟩ | ⟨rfl, rfl, rfl⟩ | ⟨rfl, rfl, rfl⟩ | ⟨rfl, rfl, rfl⟩ |
    ⟨rfl, rfl, rfl⟩ | ⟨rfl, rfl, rfl⟩ | ⟨rfl, rfl, rfl⟩ | ⟨rfl, rfl, rfl⟩
  all_goals exact fieldWr_readsBack hi hit h hok

end Sys2Proof.Machine
end
